-- ==== Sys2Proof/Word.lean ====
section
/-! DEFINITION. The words of the block: bytes, 16-bit halves, byte strings (spec/00_scope.md R7 to R9). -/

namespace Sys2Proof

/-- An unsigned 8-bit value (R7). -/
abbrev Byte := BitVec 8

/-- A 16-bit unsigned value: the running sum and the checksum (10_state.md R22). -/
abbrev Half := BitVec 16

/-- A sequence of bytes, first byte first (R9): a payload, a text, a unit. -/
abbrev ByteString := List Byte

end Sys2Proof
end

