-- ==== Sys2Proof/Config.lean ====
section
/-! DEFINITION. What is fixed for the hardware (spec/00_scope.md R6), the shape of the device profile
(10_state.md R30), and the one free value. The profile's contents are no constant here: State holds the
profile, so every statement speaks of every profile. -/

namespace Sys2Proof

namespace Config

/-- First header byte (R6, 30_encoding.md R73). -/
def hdr1 : Byte := 0xAB#8

/-- Second header byte (R6, 30_encoding.md R73). -/
def hdr2 : Byte := 0xCD#8

/-- Least legal length byte: N counts the two checksum bytes (R6, 30_encoding.md R71). -/
def nMin : Nat := 2

/-- Size of the payload buffer in bytes (R6, 10_state.md R25). -/
def bufSize : Nat := 255

/-- Bytes of a measurement payload (R6, 30_encoding.md R78). -/
def payloadLen : Nat := 14

/-- Longest unit string in bytes (R6, 30_encoding.md R86). -/
def unitMaxLen : Nat := 8

/-- FREE VALUE: what an index of the payload buffer holds that nothing has written since the `era`-th
RESET (10_state.md R25, R38 "unspecified"; 93_implementation_defined.md I1 "any value"). It has no body,
so no proof can see a value of it. Log entries 5 and 6. -/
opaque bufUnwritten : (era : Nat) → (index : Nat) → Byte

end Config

/-- Which of the three status bytes of a measurement payload: bytes 11, 12, 13 (30_encoding.md R82). -/
inductive StatusByte where
  | a | b | c
  deriving DecidableEq, Repr

/-- Where a status flag is read: a status byte and a bit of it (R82). -/
structure BitPos where
  byte : StatusByte
  bit : Fin 8
  deriving DecidableEq, Repr

/-- STATUS_LAYOUT: the position of each of the eleven flags, in the order of 10_state.md R33. -/
structure StatusLayout where
  isMax : BitPos
  isMin : BitPos
  isHold : BitPos
  isRel : BitPos
  isAutoRange : BitPos
  batteryWarning : BitPos
  highVoltageWarning : BitPos
  isDc : BitPos
  peakMax : BitPos
  peakMin : BitPos
  barPolarity : BitPos
  deriving DecidableEq, Repr

/-- One entry of UNITS: a mode name, a range byte and the unit they give (10_state.md R30). -/
structure UnitEntry where
  mode : ByteString
  range : Byte
  unit : ByteString
  deriving DecidableEq, Repr

/-- One entry of EXPONENT_TABLE: a byte and its power of ten (10_state.md R30, 30_encoding.md R87). -/
structure ExponentEntry where
  byte : Byte
  exponent : Int
  deriving DecidableEq, Repr

/-- The device profile P (10_state.md R30). Each function of the spec is a finite table read by key, the
first entry of a key counting and an absent key giving None (log entry 14). -/
structure Profile where
  modes : List ByteString
  units : List UnitEntry
  overloadMarkers : List ByteString
  exponentTable : List ExponentEntry
  statusLayout : StatusLayout
  deriving DecidableEq, Repr

end Sys2Proof
end

