-- ==== Sys2Proof/Syntax.lean ====
section
/-! DEFINITION. The operations of the block: one constructor per row of spec/opcode_table.json, in the
table's order (30_encoding.md R76). -/

namespace Sys2Proof

/-- An operation with its operand. A byte step's operand is the input byte `b`; the two header rows fix
that byte (their masks cover all ten bits), so they carry none. -/
inductive Instr where
  /-- SEEK1.HDR1 (40_frame_sync.md R101); the byte is 0xAB. -/
  | seek1Hdr1
  /-- SEEK1.SKIP (R102). -/
  | seek1Skip (b : Byte)
  /-- SEEK2.HDR2 (R103); the byte is 0xCD. -/
  | seek2Hdr2
  /-- SEEK2.MISS (R104). -/
  | seek2Miss (b : Byte)
  /-- LEN.BAD (R106). -/
  | lenBad (b : Byte)
  /-- LEN.OK (R105). -/
  | lenOk (b : Byte)
  /-- PAYLOAD.DATA (R107). -/
  | payloadData (b : Byte)
  /-- PAYLOAD.CKHI (R108). -/
  | payloadCkhi (b : Byte)
  /-- PAYLOAD.CKLO_OK (R109). -/
  | payloadCkloOk (b : Byte)
  /-- PAYLOAD.CKLO_BAD (R110). -/
  | payloadCkloBad (b : Byte)
  /-- CLEAR (R111). -/
  | clear
  /-- RESET (70_reset_and_hazards.md R230). -/
  | reset
  /-- DECODE of a payload (41_payload_decode.md R140; log entry 17). -/
  | decode (p : ByteString)
  deriving DecidableEq, Repr

end Sys2Proof
end

