-- ==== Sys2Proof/WellFormed.lean ====
section
/-! DEFINITION. Which operands an operation may carry (the conditions of 30_encoding.md R76 that read the
input byte alone), and which profiles the spec admits (00_scope.md R6, 10_state.md R30). -/

namespace Sys2Proof

/-- The operand is one that the row of R76 admits. Any payload may be handed to DECODE
(41_payload_decode.md R156). -/
def Instr.wf : Instr → Bool
  | .seek1Hdr1 => true
  | .seek1Skip b => b != Config.hdr1
  | .seek2Hdr2 => true
  | .seek2Miss b => b != Config.hdr2
  | .lenBad b => decide (b.toNat < Config.nMin)
  | .lenOk b => decide (Config.nMin ≤ b.toNat)
  | .payloadData _ => true
  | .payloadCkhi _ => true
  | .payloadCkloOk _ => true
  | .payloadCkloBad _ => true
  | .clear => true
  | .reset => true
  | .decode _ => true

/-- An ASCII byte: the whole of a one-byte UTF-8 character (30_encoding.md R79, R86). -/
def isAscii (b : Byte) : Bool := decide (b.toNat < 0x80)

/-- What the first byte of a UTF-8 character asks for: how many bytes follow it, and the bounds of the next one.
None for a byte that begins no character. PRESUMED: the UTF-8 standard (93_implementation_defined.md G5), safe;
log entry 16. -/
def utf8Lead (b : Byte) : Option (Nat × Nat × Nat) :=
  if isAscii b then some (0, 0x80, 0xBF)
  else if b.toNat < 0xC2 then none
  else if b.toNat < 0xE0 then some (1, 0x80, 0xBF)
  else if b.toNat = 0xE0 then some (2, 0xA0, 0xBF)
  else if b.toNat = 0xED then some (2, 0x80, 0x9F)
  else if b.toNat < 0xF0 then some (2, 0x80, 0xBF)
  else if b.toNat = 0xF0 then some (3, 0x90, 0xBF)
  else if b.toNat < 0xF4 then some (3, 0x80, 0xBF)
  else if b.toNat = 0xF4 then some (3, 0x80, 0x8F)
  else none

/-- The bytes are the rest of a character of which `need` bytes are missing, the next one in `lo..hi`, and then
whole characters. -/
def utf8From (need lo hi : Nat) : ByteString → Bool
  | [] => decide (need = 0)
  | b :: bs =>
    match need with
    | 0 =>
      match utf8Lead b with
      | some (k, l, h) => utf8From k l h bs
      | none => false
    | k + 1 => decide (lo ≤ b.toNat) && decide (b.toNat ≤ hi) && utf8From k 0x80 0xBF bs

/-- The bytes are UTF-8 text (R86). -/
def isUtf8 (t : ByteString) : Bool := utf8From 0 0x80 0xBF t

/-- A unit is 1 to UNIT_MAX_LEN bytes of UTF-8 text (30_encoding.md R86; log entry 16). -/
def UnitEntry.wf (e : UnitEntry) : Bool :=
  decide (1 ≤ e.unit.length) && decide (e.unit.length ≤ Config.unitMaxLen) && isUtf8 e.unit

/-- Every prefix of EXPONENT_TABLE is one ASCII byte (R86). -/
def ExponentEntry.wf (e : ExponentEntry) : Bool := isAscii e.byte

/-- A profile the spec admits: at most 256 modes, legal units, ASCII prefixes, and one entry a key (R6,
10_state.md R30, 30_encoding.md R86). -/
def Profile.wf (P : Profile) : Bool :=
  decide (P.modes.length ≤ 256)
    && P.units.all UnitEntry.wf
    && P.exponentTable.all ExponentEntry.wf
    && decide ((P.units.map fun e => (e.mode, e.range)).Nodup)
    && decide ((P.exponentTable.map ExponentEntry.byte).Nodup)

end Sys2Proof
end

