-- ==== Sys2Proof/Decode.lean ====
section
/-! DEFINITION. Which operation an input selects, and the encodings behind it: the state's encoding, the
operation word, the operation map, the encoder, and the wire format of a frame (spec/30_encoding.md). -/

namespace Sys2Proof

/-- The four states of the synchronizer (10_state.md R21). -/
inductive St where
  | seek1 | seek2 | len | payload
  deriving DecidableEq, Repr

/-- The 2-bit encoding of the state (30_encoding.md R75). -/
def St.code : St → BitVec 2
  | .seek1 => 0b00#2
  | .seek2 => 0b01#2
  | .len => 0b10#2
  | .payload => 0b11#2

/-- The state of a 2-bit code: all four codes are used (R75). -/
def St.ofCode (c : BitVec 2) : St :=
  if c = 0b00#2 then .seek1
  else if c = 0b01#2 then .seek2
  else if c = 0b10#2 then .len
  else .payload

/-- An input of the block at transaction level (10_state.md R35): a byte, Clear, Reset, or the host's
DECODE of a payload. -/
inductive Input where
  | byte (b : Byte)
  | clear
  | reset
  | decode (p : ByteString)
  deriving DecidableEq, Repr

/-- What stands for an operation in its format (R74): a SYNC10 word, one of the two CTRL inputs (no bits),
or the DECODE operation with its payload (no bits). Log entry 13. -/
inductive Code where
  | sync10 (w : BitVec 10)
  | ctrlClear
  | ctrlReset
  | decode (p : ByteString)
  deriving DecidableEq, Repr

/-- The operation word `{st, b}` (R74). -/
def opWord (st : St) (b : Byte) : BitVec 10 := st.code ++ b

/-- Bits 7:0 of the operation word: the input byte (R74). -/
def wordByte (w : BitVec 10) : Byte := w.extractLsb' 0 8

/-- Bits 9:8 of the operation word: the state before the step (R74). -/
def wordState (w : BitVec 10) : St := St.ofCode (w.extractLsb' 8 2)

/-- The code of an input taken in a state (R74). -/
def Input.code (st : St) : Input → Code
  | .byte b => .sync10 (opWord st b)
  | .clear => .ctrlClear
  | .reset => .ctrlReset
  | .decode p => .decode p

/-- A 16-bit value from its two bytes, high byte first (00_scope.md R8, 20_memory.md R54). -/
def be16 (hi lo : Byte) : Half := hi ++ lo

/-- What the extra conditions of the operation map read besides the word (R76): the registers `cnt`, `n`,
`sum` and the buffered byte `buf[n-2]`. -/
structure RowCtx where
  cnt : Byte
  n : Byte
  sum : Half
  ckHi : Byte
  deriving DecidableEq, Repr

/-- `cnt < n - 2` on unbounded integers (R76, R107). -/
def RowCtx.atData (c : RowCtx) : Bool := decide (c.cnt.toNat + 2 < c.n.toNat)

/-- `cnt = n - 2` (R76, R108). -/
def RowCtx.atCkHi (c : RowCtx) : Bool := decide (c.cnt.toNat + 2 = c.n.toNat)

/-- `cnt = n - 1` (R76, R109, R110). -/
def RowCtx.atCkLo (c : RowCtx) : Bool := decide (c.cnt.toNat + 1 = c.n.toNat)

/-- `sum = buf[n-2] * 256 + b` (R76, R109). -/
def RowCtx.sumMatches (c : RowCtx) (b : Byte) : Bool := decide (c.sum = be16 c.ckHi b)

/-- One row of the operation map (R76): the bits it fixes, its extra condition, and its operation. -/
structure OpRow where
  pattern : BitVec 10
  mask : BitVec 10
  extra : RowCtx → Byte → Bool
  make : Byte → Instr

/-- `(w & mask) = match` (R74) and the row's extra condition. -/
def OpRow.hits (r : OpRow) (c : RowCtx) (w : BitVec 10) : Bool :=
  decide (w &&& r.mask = r.pattern) && r.extra c (wordByte w)

/-- The byte-step rows of the operation map, in the order listed (R76). -/
def opTable : List OpRow := [
  ⟨0x0AB#10, 0x3FF#10, fun _ _ => true, fun _ => .seek1Hdr1⟩,
  ⟨0x000#10, 0x300#10, fun _ b => b != Config.hdr1, .seek1Skip⟩,
  ⟨0x1CD#10, 0x3FF#10, fun _ _ => true, fun _ => .seek2Hdr2⟩,
  ⟨0x100#10, 0x300#10, fun _ b => b != Config.hdr2, .seek2Miss⟩,
  ⟨0x200#10, 0x3FE#10, fun _ b => decide (b.toNat < Config.nMin), .lenBad⟩,
  ⟨0x200#10, 0x300#10, fun _ b => decide (Config.nMin ≤ b.toNat), .lenOk⟩,
  ⟨0x300#10, 0x300#10, fun c _ => c.atData, .payloadData⟩,
  ⟨0x300#10, 0x300#10, fun c _ => c.atCkHi, .payloadCkhi⟩,
  ⟨0x300#10, 0x300#10, fun c b => c.atCkLo && c.sumMatches b, .payloadCkloOk⟩,
  ⟨0x300#10, 0x300#10, fun c b => c.atCkLo && !c.sumMatches b, .payloadCkloBad⟩]

/-- The row taken: the first that hits (R76 "the rows are tried in the order listed and the first that
matches is taken"). -/
def selectRow (c : RowCtx) (w : BitVec 10) : Option OpRow := opTable.find? (·.hits c w)

/-- Why the decoder gives no operation. -/
inductive Reject where
  /-- In PAYLOAD, no row's condition on `cnt` and `n` holds; 10_state.md R26(a) rules such states out. -/
  | noRow
  /-- The number is not a 10-bit operation word. -/
  | notAWord
  deriving DecidableEq, Repr

/-- The decoder: the operation a code selects in a context (R76). Total; it rejects by name. -/
def decode (c : RowCtx) : Code → Except Reject Instr
  | .sync10 w =>
    match selectRow c w with
    | some r => .ok (r.make (wordByte w))
    | none => .error .noRow
  | .ctrlClear => .ok .clear
  | .ctrlReset => .ok .reset
  | .decode p => .ok (.decode p)

/-- The encoder: the word, control input or host operation that stands for an operation (R74, R76). -/
def encode : Instr → Code
  | .seek1Hdr1 => .sync10 (opWord .seek1 0xAB#8)
  | .seek1Skip b => .sync10 (opWord .seek1 b)
  | .seek2Hdr2 => .sync10 (opWord .seek2 0xCD#8)
  | .seek2Miss b => .sync10 (opWord .seek2 b)
  | .lenBad b => .sync10 (opWord .len b)
  | .lenOk b => .sync10 (opWord .len b)
  | .payloadData b => .sync10 (opWord .payload b)
  | .payloadCkhi b => .sync10 (opWord .payload b)
  | .payloadCkloOk b => .sync10 (opWord .payload b)
  | .payloadCkloBad b => .sync10 (opWord .payload b)
  | .clear => .ctrlClear
  | .reset => .ctrlReset
  | .decode p => .decode p

/-- The condition of an operation's row that reads the registers (R76, column "extra condition"); the
conditions on the byte alone are `Instr.wf`. -/
def Instr.applies (c : RowCtx) : Instr → Bool
  | .seek1Hdr1 => true
  | .seek1Skip _ => true
  | .seek2Hdr2 => true
  | .seek2Miss _ => true
  | .lenBad _ => true
  | .lenOk _ => true
  | .payloadData _ => c.atData
  | .payloadCkhi _ => c.atCkHi
  | .payloadCkloOk b => c.atCkLo && c.sumMatches b
  | .payloadCkloBad b => c.atCkLo && !c.sumMatches b
  | .clear => true
  | .reset => true
  | .decode _ => true

/-- The context in which a PAYLOAD word is read when no state is given: `n` = 3 and `cnt` = 0, in which the
first PAYLOAD row applies. Log entry 12. -/
def RowCtx.sample : RowCtx := ⟨0x00#8, 0x03#8, 0x0000#16, 0x00#8⟩

/-- Whether a number of `nbits` bits is an operation word: 10 bits, in whole bytes (R74). -/
def isTableWord (nbits w : Nat) : Bool := decide (10 ≤ nbits) && decide (w < 1024)

/-- The decoder on a number, in the sample context. -/
def decodeNumber (nbits w : Nat) : Except Reject Instr :=
  if isTableWord nbits w then decode .sample (.sync10 (BitVec.ofNat 10 w)) else .error .notAWord

/-- The decoder as the host asks it: bit 0 of `w` is bit 0 of the operation word. CTRL and DECODE rows have
no bits (R74), so no number stands for them (log entry 12). -/
def decodeTableWord (nbits w : Nat) : Option Instr :=
  match decodeNumber nbits w with
  | .ok i => some i
  | .error _ => none

/-! ## The wire frame (R70 to R73) -/

/-- The sum of a byte sequence on unbounded integers (R72). -/
def byteSum (p : ByteString) : Nat := (p.map BitVec.toNat).sum

/-- The length byte of a payload: it counts the payload and the two checksum bytes (R71). -/
def lengthByte (p : ByteString) : Byte := BitVec.ofNat 8 (p.length + 2)

/-- The checksum of a payload's frame: the sum of all bytes from the first header byte (R72). -/
def frameChecksum (p : ByteString) : Half :=
  BitVec.ofNat 16 (Config.hdr1.toNat + Config.hdr2.toNat + (p.length + 2) + byteSum p)

/-- The bytes of a frame with a given checksum field (R70). -/
def frameWith (p : ByteString) (ck : Half) : ByteString :=
  [Config.hdr1, Config.hdr2, lengthByte p] ++ p ++ [ck.extractLsb' 8 8, ck.extractLsb' 0 8]

/-- The valid frame of a payload (R70, R72). -/
def frameBytes (p : ByteString) : ByteString := frameWith p (frameChecksum p)

/-- A command frame: `AB CD 03 op` and the big-endian value of `opcode + 379` (R91). -/
def commandFrame (op : Byte) : ByteString :=
  [0xAB#8, 0xCD#8, 0x03#8, op,
    BitVec.ofNat 8 ((op.toNat + 379) / 256), BitVec.ofNat 8 ((op.toNat + 379) % 256)]

end Sys2Proof
end

