-- ==== Sys2Proof/Machine/State.lean ====
section
/-! DEFINITION. The state of the machine, the values its operations return, and the reasons a step can stop
(spec/10_state.md, spec/30_encoding.md §4). -/

namespace Sys2Proof.Machine

/-- An event of a synchronizer step (30_encoding.md R83). -/
inductive Event where
  /-- FRAME: the payload and its length L = n - 2. -/
  | frame (payload : ByteString) (length : Byte)
  /-- CHECKSUM_ERROR: the received checksum and the running sum. -/
  | checksumError (expected computed : Half)
  /-- LENGTH_ERROR: the rejected length byte. -/
  | lengthError (n : Byte)
  deriving DecidableEq, Repr

/-- The decoder's error codes (30_encoding.md R84, 10_state.md R34). -/
inductive DecodeErr where
  | shortPayload | unknownMode | badDisplay
  deriving DecidableEq, Repr

/-- An exact decimal number `(-1)^neg * mant * 10^exp`, not normalised (30_encoding.md R85). -/
structure Decimal where
  neg : Bool
  mant : BitVec 24
  exp : Int
  deriving DecidableEq, Repr

/-- The eleven status flags, in the order of 10_state.md R33. -/
structure StatusFlags where
  isMax : Bool
  isMin : Bool
  isHold : Bool
  isRel : Bool
  isAutoRange : Bool
  batteryWarning : Bool
  highVoltageWarning : Bool
  isDc : Bool
  peakMax : Bool
  peakMin : Bool
  barPolarity : Bool
  deriving DecidableEq, Repr

/-- The measurement record (10_state.md R32). -/
structure Measurement where
  mode : Byte
  rangeCode : Byte
  displayText : ByteString
  isOverload : Bool
  value : Option Decimal
  unit : Option ByteString
  progress : BitVec 12
  flags : StatusFlags
  deriving DecidableEq, Repr

/-- What DECODE returns: `Ok(m)` or `Err(code)` (00_scope.md R11). -/
inductive DecodeResult where
  | ok (m : Measurement)
  | err (e : DecodeErr)
  deriving DecidableEq, Repr

/-- What a step returns to the host: an event of the synchronizer or the result of a DECODE
(10_state.md R27, R35). -/
inductive Output where
  | event (e : Event)
  | decoded (r : DecodeResult)
  deriving DecidableEq, Repr

/-- The output registers of the port-level mapping (10_state.md R36). -/
structure Ports where
  evValid : Bool
  evKind : BitVec 2
  evLen : Byte
  evExpected : Half
  evComputed : Half
  deriving DecidableEq, Repr

/-- The payload buffer as (index, byte) cells, indices strictly rising (10_state.md R25). -/
abbrev Memory := List Host.Cell

/-- Why a step stops with a fault. Both are ruled out by the invariants of 10_state.md R26. -/
inductive Fault where
  /-- Raised by `stepInput`: in PAYLOAD no row of the operation map applies (R76 covers only the states of
  R26). Safe: the machine stops where the spec gives no operation. Log entry 9. -/
  | noOperation
  /-- Raised by a PAYLOAD operation: a buffer index outside 0..254, or `n - 2` below 0. Safe: the spec has
  no such index (20_memory.md R50, R51). Log entry 10. -/
  | bufferIndex
  deriving DecidableEq, Repr

/-- Why an operation is refused. -/
inductive Refusal where
  /-- Raised by `exec` for an operation that has no meaning yet; none is left. Safe. -/
  | notModelled (mnemonic : String)
  /-- Raised by `execDecode`: DECODE before the profile is loaded (70_reset_and_hazards.md R232 "a model
  refuses it"). Safe. -/
  | profileNotLoaded
  deriving DecidableEq, Repr

/-- The state of the machine. `st`, `sum`, `n`, `cnt`, `buf` are the synchronizer's tuple (10_state.md R20);
`ports` the output registers of R36; `profile` the configuration of R30, absent until the host has loaded it
(70_reset_and_hazards.md R232). The last three are the model's own: `inputs` the host's pending inputs,
oldest first; `output` what the last step returned (R27); `era` the counter of the free value for buffer
bytes the spec leaves unspecified. Log entries 1, 3, 4, 6. -/
structure State where
  st : St
  sum : Half
  n : Byte
  cnt : Byte
  buf : Memory
  ports : Ports
  profile : Option Profile
  inputs : List Input
  output : Option Output
  era : Nat
  deriving DecidableEq, Repr

/-- The output registers with no event: all zero, their reset values (10_state.md R36, R38; log entry 8). -/
def Ports.idle : Ports := ⟨false, 0#2, 0#8, 0#16, 0#16⟩

/-- The state after reset (10_state.md R38): SEEK1, `sum`, `n`, `cnt` zero, no buffer byte listed, ports
zero. No profile is loaded and no input is pending (log entries 1, 4, 7). -/
def State.reset : State where
  st := .seek1
  sum := 0x0000#16
  n := 0x00#8
  cnt := 0x00#8
  buf := []
  ports := Ports.idle
  profile := none
  inputs := []
  output := none
  era := 0

end Sys2Proof.Machine
end

