-- ==== Sys2Proof/Machine/Ops.lean ====
section
/-! DEFINITION. The named operations over the buffer, the registers and the outputs. This block takes no
exceptions: its one shared "entry" is the report of an event, which returns the synchronizer to SEEK1 in the
same step (spec/60_exceptions.md R204, R205). -/

namespace Sys2Proof.Machine

/-! ## The payload buffer as canonical data -/

/-- The byte listed at an index, if any. -/
def Memory.read? : Memory → Nat → Option Byte
  | [], _ => none
  | (a, v) :: m, i => if a = i then some v else Memory.read? m i

/-- Lists a byte at an index, keeping the indices strictly rising. -/
def Memory.write : Memory → Nat → Byte → Memory
  | [], i, b => [(i, b)]
  | (a, v) :: m, i, b =>
    if i < a then (i, b) :: (a, v) :: m
    else if i = a then (i, b) :: m
    else (a, v) :: Memory.write m i b

/-- The canonical form: indices strictly rising and inside the buffer (10_state.md R25). An unlisted index
holds a free value (log entry 5), so no listed byte equals what an unlisted index reads as by rule. -/
def Memory.wf : Memory → Bool
  | [] => true
  | (a, _) :: m => decide (a < Config.bufSize) && m.all (fun c => decide (a < c.1)) && Memory.wf m

/-- What an index that is not listed reads as: a free value (10_state.md R25, 93_implementation_defined.md
I1). -/
def Memory.unlisted (era i : Nat) : Byte := Config.bufUnwritten era i

/-- BufRead(i) (20_memory.md R52). -/
def State.bufRead (s : State) (i : Nat) : Byte :=
  match s.buf.read? i with
  | some b => b
  | none => Memory.unlisted s.era i

/-- The state after BufWrite(cnt, b) and `cnt <- cnt + 1` (20_memory.md R51, 40_frame_sync.md R107 to
R110). -/
def State.pushed (b : Byte) (s : State) : State :=
  { s with buf := s.buf.write s.cnt.toNat b, cnt := s.cnt + 1#8 }

/-- BufWrite(cnt, b) then `cnt <- cnt + 1`; none when the index `cnt` is outside the buffer (R50, R51). -/
def State.pushByte (b : Byte) (s : State) : Option State :=
  if s.cnt.toNat < Config.bufSize then some (s.pushed b) else none

/-- The bytes at indices 0 to k-1. -/
def State.bufBytes (s : State) (k : Nat) : ByteString := (List.range k).map s.bufRead

/-! ## The running sum -/

/-- `sum <- (sum + b) mod 2^16` (10_state.md R22). -/
def addSum (sum : Half) (b : Byte) : Half := sum + b.setWidth 16

/-! ## Outputs -/

/-- A step that returns nothing: no event, port outputs zero (10_state.md R27, R36). -/
def State.quiet (s : State) : State := { s with output := none, ports := Ports.idle }

/-- The event code `ev_kind` (30_encoding.md R83); code 3 is never emitted. -/
def Event.kind : Event → BitVec 2
  | .frame _ _ => 0#2
  | .checksumError _ _ => 1#2
  | .lengthError _ => 2#2

/-- The output registers that carry an event (10_state.md R36, 30_encoding.md R83): `ck` is the received
checksum and `sum` the running sum. -/
def Event.ports (e : Event) (ck sum : Half) : Ports :=
  match e with
  | .frame _ length => ⟨true, e.kind, length, ck, sum⟩
  | .checksumError expected computed => ⟨true, e.kind, 0#8, expected, computed⟩
  | .lengthError n => ⟨true, e.kind, n, 0#16, 0#16⟩

/-- Reports an event and returns to SEEK1 in the same step (40_frame_sync.md R112, 60_exceptions.md R204):
the one operation that FRAME, CHECKSUM_ERROR and LENGTH_ERROR share. -/
def State.report (e : Event) (ck : Half) (s : State) : State :=
  { s with st := .seek1, output := some (.event e), ports := e.ports ck s.sum }

/-- Returns a decode result; no register of the synchronizer changes (41_payload_decode.md R140, R153). -/
def State.answer (r : DecodeResult) (s : State) : State := { s with output := some (.decoded r) }

/-- The event a step returned, if any. -/
def State.event? (s : State) : Option Event :=
  match s.output with
  | some (.event e) => some e
  | some (.decoded _) => none
  | none => none

/-! ## What the operation map reads -/

/-- The context in which the operation map is read in a state (30_encoding.md R76). -/
def State.rowCtx (s : State) : RowCtx := ⟨s.cnt, s.n, s.sum, s.bufRead (s.n.toNat - 2)⟩

/-! ## Loading from outside -/

/-- The host loads the profile (70_reset_and_hazards.md R232). -/
def State.withProfile (P : Profile) (s : State) : State := { s with profile := some P }

/-- The host appends inputs to those pending (10_state.md R35). -/
def State.supply (is : List Input) (s : State) : State := { s with inputs := s.inputs ++ is }

end Sys2Proof.Machine
end

