-- ==== Sys2Proof/Machine/Control.lean ====
section
/-! DEFINITION. The two control inputs (spec/40_frame_sync.md R111, 70_reset_and_hazards.md R230). -/

namespace Sys2Proof.Machine

/-- CLEAR (R111): a partial frame is dropped without an event. -/
def execClear (s : State) : Host.Outcome State Fault Refusal :=
  .next { s.quiet with st := .seek1 }

/-- RESET (R230): every register takes its reset value (10_state.md R38); the buffer's contents become
unspecified, a fresh free value; the profile is not affected. -/
def execReset (s : State) : Host.Outcome State Fault Refusal :=
  .next
    { s.quiet with
      st := .seek1
      sum := 0x0000#16
      n := 0x00#8
      cnt := 0x00#8
      buf := []
      era := s.era + 1 }

end Sys2Proof.Machine
end

