-- ==== Sys2Proof/Machine/Operands.lean ====
section
/-! DEFINITION. Operand forms: the checksum field of a buffered frame, the fields of a measurement payload,
the reads of the profile, and the display text as a number (spec/30_encoding.md §3, 41_payload_decode.md). -/

namespace Sys2Proof.Machine

/-! ## Operands of the PAYLOAD operations -/

/-- `expected = BufRead(n-2) * 256 + b`, big-endian (20_memory.md R54, 40_frame_sync.md R109); none when
`n - 2` is below 0. -/
def State.expectedSum (b : Byte) (s : State) : Option Half :=
  if Config.nMin ≤ s.n.toNat then some (be16 (s.bufRead (s.n.toNat - 2)) b) else none

/-- The frame's payload `[BufRead(0), ..., BufRead(n-3)]` (R109). -/
def State.framePayload (s : State) : ByteString := s.bufBytes (s.n.toNat - 2)

/-! ## The fields of a measurement payload -/

/-- The fields of the 14-byte payload (30_encoding.md R78). -/
structure PayloadFields where
  modeIndex : Byte
  rangeCode : Byte
  display : ByteString
  progressTens : Byte
  progressOnes : Byte
  statusA : Byte
  statusB : Byte
  statusC : Byte
  deriving DecidableEq, Repr

/-- The fields of a payload; none when it has fewer than 14 bytes (41_payload_decode.md R141). Bytes after
byte 13 are ignored. -/
def payloadFields : ByteString → Option PayloadFields
  | m :: r :: d2 :: d3 :: d4 :: d5 :: d6 :: d7 :: d8 :: t :: o :: a :: b :: c :: _ =>
    some ⟨m, r, [d2, d3, d4, d5, d6, d7, d8], t, o, a, b, c⟩
  | _ => none

/-- `zext_12(p[9]) * 10 + zext_12(p[10])` (41_payload_decode.md R150). -/
def progressOf (tens ones : Byte) : BitVec 12 := tens.setWidth 12 * 10#12 + ones.setWidth 12

/-! ## Reads of the profile (20_memory.md R53) -/

/-- ProfileRead(MODES, i): the mode's name; none when `i >= N_MODES` (41_payload_decode.md R142). -/
def modeName (P : Profile) (i : Byte) : Option ByteString := P.modes[i.toNat]?

/-- ProfileRead(UNITS, (name, r)) (41_payload_decode.md R147). -/
def unitOf (P : Profile) (name : ByteString) (r : Byte) : Option ByteString :=
  (P.units.find? fun e => decide (e.mode = name) && decide (e.range = r)).map UnitEntry.unit

/-- EXPONENT_TABLE(b) (30_encoding.md R87). -/
def exponentOf (P : Profile) (b : Byte) : Option Int :=
  (P.exponentTable.find? fun e => decide (e.byte = b)).map ExponentEntry.exponent

/-- The exponent of a unit's first byte, if that byte is in the table (41_payload_decode.md R148). -/
def unitExponent (P : Profile) : ByteString → Option Int
  | [] => none
  | c :: _ => exponentOf P c

/-! ## The display text -/

/-- ASCII space, removed from the display wherever it stands (30_encoding.md R79). -/
def space : Byte := 0x20#8

/-- The display text: none when a byte is not ASCII (BAD_DISPLAY), else every space removed
(41_payload_decode.md R144). -/
def displayText (d : ByteString) : Option ByteString :=
  if d.any (fun c => decide (0x80 ≤ c.toNat)) then none else some (d.filter (fun c => c != space))

/-- `'0' <= c <= '9'` (41_payload_decode.md R146). -/
def isDigit (c : Byte) : Bool := decide (0x30 ≤ c.toNat) && decide (c.toNat ≤ 0x39)

/-- The sign of a text and the rest of it (R146): one leading '-' or '+' is taken. -/
def splitSign : ByteString → Bool × ByteString
  | [] => (false, [])
  | c :: cs =>
    if c = 0x2D#8 then (true, cs)
    else if c = 0x2B#8 then (false, cs)
    else (false, c :: cs)

/-- The variables of the loop of R146. -/
structure Scan where
  mant : Nat
  digits : Nat
  frac : Nat
  point : Bool
  deriving DecidableEq, Repr

/-- The loop of R146 over the bytes after the sign; none where it raises BAD_DISPLAY. -/
def scanNumber : ByteString → Scan → Option Scan
  | [], a => some a
  | c :: cs, a =>
    if isDigit c then
      scanNumber cs
        { mant := a.mant * 10 + (c.toNat - 0x30)
          digits := a.digits + 1
          frac := if a.point then a.frac + 1 else a.frac
          point := a.point }
    else if c = 0x2E#8 ∧ a.point = false then scanNumber cs { a with point := true }
    else none

/-- parse_decimal (41_payload_decode.md R146); none where it raises BAD_DISPLAY. -/
def parseDecimal (t : ByteString) : Option Decimal :=
  match scanNumber (splitSign t).2 ⟨0, 0, 0, false⟩ with
  | none => none
  | some a =>
    if a.digits = 0 then none
    else some ⟨(splitSign t).1, BitVec.ofNat 24 a.mant, -(a.frac : Int)⟩

/-- `(-1)^neg * mant` (30_encoding.md R85). -/
def Decimal.signed (d : Decimal) : Int := if d.neg then -(d.mant.toNat : Int) else (d.mant.toNat : Int)

/-- Equality of two values as numbers, at a common exponent (R85): trailing zeros and the sign of a zero do
not count. -/
def Decimal.sameNumber (a b : Decimal) : Bool :=
  decide (a.signed * 10 ^ (a.exp - min a.exp b.exp).toNat = b.signed * 10 ^ (b.exp - min a.exp b.exp).toNat)

/-! ## Unit normalisation -/

/-- normalise, the value: an exact move of the exponent (41_payload_decode.md R148). -/
def normaliseValue (P : Profile) (v : Option Decimal) (u : Option ByteString) : Option Decimal :=
  match v with
  | none => none
  | some d =>
    match u.bind (unitExponent P) with
    | some e => some { d with exp := d.exp + e }
    | none => some d

/-- normalise, the unit: a first byte of the exponent table is stripped, with or without a value
(41_payload_decode.md R149). -/
def normaliseUnit (P : Profile) : Option ByteString → Option ByteString
  | none => none
  | some u =>
    match unitExponent P u with
    | some _ => some u.tail
    | none => some u

end Sys2Proof.Machine
end

