-- ==== Sys2Proof/Machine/Flags.lean ====
section
/-! DEFINITION. The flags of a measurement: the overload flag and the eleven status flags
(spec/41_payload_decode.md R145, R151, R152; 10_state.md R33). -/

namespace Sys2Proof.Machine

/-- The overload test: the text is a marker, byte for byte (R145). -/
def isOverloadText (P : Profile) (t : ByteString) : Bool := P.overloadMarkers.contains t

/-- The bit at a position of the three status bytes (R151, 30_encoding.md R82). -/
def statusBit (pos : BitPos) (a b c : Byte) : Bool :=
  match pos.byte with
  | .a => a.getLsbD pos.bit.val
  | .b => b.getLsbD pos.bit.val
  | .c => c.getLsbD pos.bit.val

/-- `is_auto_range = 1 - bit`: the one inverted flag (R152). -/
def autoRangeOf (bit : Bool) : Bool := !bit

/-- The eleven status flags under a layout (R151). -/
def statusFlags (L : StatusLayout) (a b c : Byte) : StatusFlags where
  isMax := statusBit L.isMax a b c
  isMin := statusBit L.isMin a b c
  isHold := statusBit L.isHold a b c
  isRel := statusBit L.isRel a b c
  isAutoRange := autoRangeOf (statusBit L.isAutoRange a b c)
  batteryWarning := statusBit L.batteryWarning a b c
  highVoltageWarning := statusBit L.highVoltageWarning a b c
  isDc := statusBit L.isDc a b c
  peakMax := statusBit L.peakMax a b c
  peakMin := statusBit L.peakMin a b c
  barPolarity := statusBit L.barPolarity a b c

end Sys2Proof.Machine
end

