-- ==== Sys2Proof/Machine/Measure.lean ====
section
/-! DEFINITION. The measurement payload decoder: the pure function DECODE and its meaning as an operation
(spec/41_payload_decode.md R140 to R152). -/

namespace Sys2Proof.Machine

/-- The overload test and, only when it fails, the parse (R145, R146): the flag and the unscaled value;
none where the parse raises BAD_DISPLAY. -/
def readValue (P : Profile) (t : ByteString) : Option (Bool × Option Decimal) :=
  if isOverloadText P t then some (true, none)
  else
    match parseDecimal t with
    | some d => some (false, some d)
    | none => none

/-- decode(P, p) (R140): the steps in the source's order, the first error ending the operation. -/
def decodePayload (P : Profile) (p : ByteString) : DecodeResult :=
  match payloadFields p with
  | none => .err .shortPayload
  | some f =>
    match modeName P f.modeIndex with
    | none => .err .unknownMode
    | some name =>
      match displayText f.display with
      | none => .err .badDisplay
      | some t =>
        match readValue P t with
        | none => .err .badDisplay
        | some (ov, v0) =>
          .ok
            { mode := f.modeIndex
              rangeCode := f.rangeCode
              displayText := t
              isOverload := ov
              value := normaliseValue P v0 (unitOf P name f.rangeCode)
              unit := normaliseUnit P (unitOf P name f.rangeCode)
              progress := progressOf f.progressTens f.progressOnes
              flags := statusFlags P.statusLayout f.statusA f.statusB f.statusC }

/-- The numeric code of a decode result (30_encoding.md R84). -/
def DecodeResult.code : DecodeResult → BitVec 2
  | .ok _ => 0#2
  | .err .shortPayload => 1#2
  | .err .unknownMode => 2#2
  | .err .badDisplay => 3#2

/-- DECODE (R140): refused before the profile is loaded (70_reset_and_hazards.md R232); else the result is
returned and no register changes. -/
def execDecode (p : ByteString) (s : State) : Host.Outcome State Fault Refusal :=
  match s.profile with
  | some P => .next (s.answer (decodePayload P p))
  | none => .refused .profileNotLoaded

end Sys2Proof.Machine
end

