-- ==== Sys2Proof/Machine/Sync.lean ====
section
/-! DEFINITION. The ten byte operations of the synchronizer (spec/40_frame_sync.md R101 to R110). Each
meaning is the rule's pseudocode; the condition of its row stands in the decoder (30_encoding.md R76), not
here (log entry 11). A register a rule does not write keeps its value (R11). -/

namespace Sys2Proof.Machine

/-- SEEK1.HDR1 (R101): the sum is loaded, not added to. -/
def execSeek1Hdr1 (s : State) : Host.Outcome State Fault Refusal :=
  .next { s.quiet with st := .seek2, sum := 0x00AB#16 }

/-- SEEK1.SKIP (R102): the byte is dropped without an event. -/
def execSeek1Skip (_b : Byte) (s : State) : Host.Outcome State Fault Refusal :=
  .next s.quiet

/-- SEEK2.HDR2 (R103). -/
def execSeek2Hdr2 (s : State) : Host.Outcome State Fault Refusal :=
  .next { s.quiet with st := .len, sum := addSum s.sum 0xCD#8 }

/-- SEEK2.MISS (R104): the byte is consumed, not matched again against 0xAB. -/
def execSeek2Miss (_b : Byte) (s : State) : Host.Outcome State Fault Refusal :=
  .next { s.quiet with st := .seek1 }

/-- LEN.BAD (R106). -/
def execLenBad (b : Byte) (s : State) : Host.Outcome State Fault Refusal :=
  .next (s.report (.lengthError b) 0#16)

/-- LEN.OK (R105): the old contents of the buffer are not cleared. -/
def execLenOk (b : Byte) (s : State) : Host.Outcome State Fault Refusal :=
  .next { s.quiet with n := b, cnt := 0#8, sum := addSum s.sum b, st := .payload }

/-- PAYLOAD.DATA (R107). -/
def execPayloadData (b : Byte) (s : State) : Host.Outcome State Fault Refusal :=
  match s.pushByte b with
  | some s1 => .next { s1.quiet with sum := addSum s.sum b }
  | none => .fault .bufferIndex

/-- PAYLOAD.CKHI (R108): the sum is not updated. -/
def execPayloadCkhi (b : Byte) (s : State) : Host.Outcome State Fault Refusal :=
  match s.pushByte b with
  | some s1 => .next s1.quiet
  | none => .fault .bufferIndex

/-- PAYLOAD.CKLO_OK (R109). -/
def execPayloadCkloOk (b : Byte) (s : State) : Host.Outcome State Fault Refusal :=
  match s.pushByte b with
  | some s1 =>
    match s1.expectedSum b with
    | some ck => .next (s1.report (.frame s1.framePayload (s1.n - 2#8)) ck)
    | none => .fault .bufferIndex
  | none => .fault .bufferIndex

/-- PAYLOAD.CKLO_BAD (R110): the payload is not emitted. -/
def execPayloadCkloBad (b : Byte) (s : State) : Host.Outcome State Fault Refusal :=
  match s.pushByte b with
  | some s1 =>
    match s1.expectedSum b with
    | some ck => .next (s1.report (.checksumError ck s1.sum) ck)
    | none => .fault .bufferIndex
  | none => .fault .bufferIndex

end Sys2Proof.Machine
end

