-- ==== Sys2Proof/Machine/Dispatch.lean ====
section
/-! DEFINITION. One arm per operation: which meaning an operation has (spec/30_encoding.md R76). -/

namespace Sys2Proof.Machine

/-- Performs an operation (40_frame_sync.md R100, 41_payload_decode.md R140). -/
def exec (i : Instr) (s : State) : Host.Outcome State Fault Refusal :=
  match i with
  | .seek1Hdr1 => Sys2Proof.Machine.execSeek1Hdr1 s
  | .seek1Skip b => Sys2Proof.Machine.execSeek1Skip b s
  | .seek2Hdr2 => Sys2Proof.Machine.execSeek2Hdr2 s
  | .seek2Miss b => Sys2Proof.Machine.execSeek2Miss b s
  | .lenBad b => Sys2Proof.Machine.execLenBad b s
  | .lenOk b => Sys2Proof.Machine.execLenOk b s
  | .payloadData b => Sys2Proof.Machine.execPayloadData b s
  | .payloadCkhi b => Sys2Proof.Machine.execPayloadCkhi b s
  | .payloadCkloOk b => Sys2Proof.Machine.execPayloadCkloOk b s
  | .payloadCkloBad b => Sys2Proof.Machine.execPayloadCkloBad b s
  | .clear => Sys2Proof.Machine.execClear s
  | .reset => Sys2Proof.Machine.execReset s
  | .decode p => Sys2Proof.Machine.execDecode p s

end Sys2Proof.Machine
end

