-- ==== Sys2Proof/Machine/Stream.lean ====
section
/-! DEFINITION. Taking an input: selection and execution of one input, and the fold of a step over a stream
(spec/40_frame_sync.md R100). -/

namespace Sys2Proof.Machine

/-- `step(s, in)` of R100: the single operation that the input selects in this state is performed. -/
def stepInput (i : Input) (s : State) : Host.Outcome State Fault Refusal :=
  match decode s.rowCtx (i.code s.st) with
  | .ok instr => exec instr s
  | .error _ => .fault .noOperation

/-- The next pending input, taken off the queue (20_memory.md R50(c), R61). -/
def State.fetch (s : State) : Option (Input × State) :=
  match s.inputs with
  | [] => none
  | i :: rest => some (i, { s with inputs := rest })

/-- `run(s, is)` of R100: the state after the inputs, and the events in order. -/
def run : List Input → State → Host.Outcome (State × List Event) Fault Refusal
  | [], s => .next (s, [])
  | i :: is, s =>
    match stepInput i s with
    | .next s1 =>
      match run is s1 with
      | .next (s2, es) => .next (s2, s1.event?.toList ++ es)
      | .fault r => .fault r
      | .refused r => .refused r
    | .fault r => .fault r
    | .refused r => .refused r

/-- The inputs of a `feed` line (30_encoding.md R89). -/
def feed (bs : ByteString) : List Input := bs.map Input.byte

/-- A line of the stream notation (R89); a program is a list of lines. `decodeFrame k` names the k-th FRAME
event of the program, counted from 1. -/
inductive Line where
  | feed (bs : ByteString)
  | clear
  | reset
  | decode (p : ByteString)
  | decodeFrame (k : Nat)
  deriving DecidableEq, Repr

/-- The payloads of the FRAME events among some events, in order. -/
def framePayloads : List Event → List ByteString
  | [] => []
  | .frame p _ :: es => p :: framePayloads es
  | .checksumError _ _ :: es => framePayloads es
  | .lengthError _ :: es => framePayloads es

/-- The inputs a line stands for, given the payloads of the program's FRAME events so far (R89); none when it
names a FRAME event that has not occurred. -/
def Line.inputs (frames : List ByteString) : Line → Option (List Input)
  | .feed bs => some (bs.map Input.byte)
  | .clear => some [.clear]
  | .reset => some [.reset]
  | .decode p => some [.decode p]
  | .decodeFrame 0 => none
  | .decodeFrame (k + 1) => frames[k]?.map fun p => [.decode p]

/-- The chunks of a stream, each processed fully before the next (20_memory.md R61, R66). -/
def runChunks : List ByteString → State → Host.Outcome (State × List Event) Fault Refusal
  | [], s => .next (s, [])
  | c :: cs, s =>
    match run (feed c) s with
    | .next (s1, es1) =>
      match runChunks cs s1 with
      | .next (s2, es2) => .next (s2, es1 ++ es2)
      | .fault r => .fault r
      | .refused r => .refused r
    | .fault r => .fault r
    | .refused r => .refused r

end Sys2Proof.Machine
end

