-- ==== Sys2Proof/Machine/Step.lean ====
section
/-! DEFINITION. The machine's step: the next pending input is taken, or the block idles
(spec/40_frame_sync.md R100, 60_exceptions.md R212). -/

namespace Sys2Proof.Machine

/-- One step. With no input pending the block is idle: no register changes, and the last step's output is
over (R212, 10_state.md R27, R36; log entry 2). -/
def step (s : State) : Host.Outcome State Fault Refusal :=
  match s.fetch with
  | some (i, s1) => stepInput i s1
  | none => .next s.quiet

/-- The state in which the very next step performs the operation of the word `w`: the state of bits 9:8, the
byte of bits 7:0 at the head of the pending inputs and, for a PAYLOAD word, the `cnt` and `n` of
`RowCtx.sample` (log entry 12). -/
def State.withFetchWord (s : State) (nbits w : Nat) : State :=
  if isTableWord nbits w then
    let word := BitVec.ofNat 10 w
    let s1 := { s with st := wordState word, inputs := Input.byte (wordByte word) :: s.inputs }
    match wordState word with
    | .payload => { s1 with cnt := RowCtx.sample.cnt, n := RowCtx.sample.n }
    | .seek1 => s1
    | .seek2 => s1
    | .len => s1
  else s

end Sys2Proof.Machine
end

