-- ==== Sys2Proof/Machine/Ports.lean ====
section
/-! DEFINITION. The port-level mapping (log entry 20; spec/10_state.md R36, R37; 60_exceptions.md R203;
70_reset_and_hazards.md R238, R239). No rule of the transaction level depends on it. -/

namespace Sys2Proof.Machine

/-- The input pins in one clock cycle (R36). -/
structure Pins where
  rst : Bool
  clear : Bool
  inValid : Bool
  inByte : Byte
  deriving DecidableEq, Repr

/-- The input the pins present: `rst` over `clear` over `in_valid` (R36, R203). -/
def Pins.input (p : Pins) : Option Input :=
  if p.rst then some .reset
  else if p.clear then some .clear
  else if p.inValid then some (.byte p.inByte)
  else none

/-- One clock cycle: the presented input is taken; with none, only the event outputs return to zero. -/
def portCycle (p : Pins) (s : State) : Host.Outcome State Fault Refusal :=
  match p.input with
  | some i => stepInput i s
  | none => .next s.quiet

/-- `pl_data`: `buf[pl_addr]`, combinational (R36). -/
def plData (addr : Byte) (s : State) : Byte := s.bufRead addr.toNat

/-- The port-level decoder: combinational over `buf[0..13]` and the profile, and over no register (R37; log
entry 19). -/
def portDecode (s : State) : Option DecodeResult :=
  s.profile.map fun P => decodePayload P (s.bufBytes Config.payloadLen)

end Sys2Proof.Machine
end

