-- ==== Sys2Proof/Machine/Profile.lean ====
section
/-! DEFINITION. The default tables of the device profile (spec/30_encoding.md R82, R87, R88). No operation
reads them: an operation reads the profile that State holds. A statement that needs one of them takes it as
a premise on the profile. MODES and UNITS have no default (92_eei_decisions.md D24). -/

namespace Sys2Proof.Machine

/-- The default STATUS_LAYOUT (30_encoding.md R82). PRESUMED: the bit positions are from general knowledge
(93_implementation_defined.md G3), unsafe; log entry 15. -/
def defaultStatusLayout : StatusLayout where
  isMax := ⟨.a, 3⟩
  isMin := ⟨.a, 2⟩
  isHold := ⟨.a, 1⟩
  isRel := ⟨.a, 0⟩
  isAutoRange := ⟨.b, 2⟩
  batteryWarning := ⟨.b, 1⟩
  highVoltageWarning := ⟨.b, 0⟩
  isDc := ⟨.c, 3⟩
  peakMax := ⟨.c, 2⟩
  peakMin := ⟨.c, 1⟩
  barPolarity := ⟨.c, 0⟩

/-- The default EXPONENT_TABLE: M, k, m, u, n (30_encoding.md R87). PRESUMED but for `m`
(93_implementation_defined.md G2), unsafe; log entry 15. -/
def defaultExponentTable : List ExponentEntry :=
  [⟨0x4D#8, 6⟩, ⟨0x6B#8, 3⟩, ⟨0x6D#8, -3⟩, ⟨0x75#8, -6⟩, ⟨0x6E#8, -9⟩]

/-- The default OVERLOAD_MARKERS: ".OL", "O.L", "OL.", "OL", "-.OL", "-O.L", "-OL.", "-OL"
(30_encoding.md R88). PRESUMED but for ".OL", "OL" and "-OL." (93_implementation_defined.md G4), unsafe;
log entry 15. -/
def defaultOverloadMarkers : List ByteString :=
  [[0x2E#8, 0x4F#8, 0x4C#8],
   [0x4F#8, 0x2E#8, 0x4C#8],
   [0x4F#8, 0x4C#8, 0x2E#8],
   [0x4F#8, 0x4C#8],
   [0x2D#8, 0x2E#8, 0x4F#8, 0x4C#8],
   [0x2D#8, 0x4F#8, 0x2E#8, 0x4C#8],
   [0x2D#8, 0x4F#8, 0x4C#8, 0x2E#8],
   [0x2D#8, 0x4F#8, 0x4C#8]]

end Sys2Proof.Machine
end

