-- ==== Sys2Proof/Safety.lean ====
section
/-! DEFINITION. The terms claims are stated in: the invariants of spec/10_state.md R26, the buffer's form,
which states a host cannot tell apart (R25, R38), and the grammar of a number (41_payload_decode.md R146). -/

namespace Sys2Proof.Machine

/-- `sum of buf[0..k-1]` on unbounded integers (R26). -/
def State.bufSum (s : State) (k : Nat) : Nat := byteSum (s.bufBytes k)

/-- The invariants (a) to (e) of R26. -/
structure State.RegInv (s : State) : Prop where
  /-- (a) -/
  payload_bounds : s.st = .payload → 2 ≤ s.n.toNat ∧ s.n.toNat ≤ 255 ∧ s.cnt.toNat + 1 ≤ s.n.toNat
  /-- (b) -/
  sum_in_data : s.st = .payload → s.cnt.toNat + 2 ≤ s.n.toNat →
    s.sum.toNat = (0xAB + 0xCD + s.n.toNat + s.bufSum s.cnt.toNat) % 2 ^ 16
  /-- (c) -/
  sum_in_checksum : s.st = .payload → s.cnt.toNat + 1 = s.n.toNat →
    s.sum.toNat = (0xAB + 0xCD + s.n.toNat + s.bufSum (s.n.toNat - 2)) % 2 ^ 16
  /-- (d) -/
  sum_in_seek2 : s.st = .seek2 → s.sum = 0x00AB#16
  /-- (e) -/
  sum_in_len : s.st = .len → s.sum = 0x0178#16

/-- The buffer is in canonical form, and in PAYLOAD every index below `cnt` is listed, so no operation reads
a free value (R25, 20_memory.md R52). -/
structure State.BufInv (s : State) : Prop where
  canonical : Memory.wf s.buf = true
  written : s.st = .payload → ∀ i, i < s.cnt.toNat → (s.buf.read? i).isSome = true

/-- The registers that can still be observed in a state agree (R25, R38, 20_memory.md R52): in SEEK1 none,
in SEEK2 and LEN the sum, in PAYLOAD the sum, `n`, `cnt` and the bytes below `cnt`. -/
def State.sameRegs (s t : State) : Prop :=
  match s.st with
  | .seek1 => True
  | .seek2 => s.sum = t.sum
  | .len => s.sum = t.sum
  | .payload =>
    s.sum = t.sum ∧ s.n = t.n ∧ s.cnt = t.cnt ∧ ∀ i, i < s.cnt.toNat → s.bufRead i = t.bufRead i

/-- Two states that a host cannot tell apart at transaction level: same state register, same profile, same
pending inputs, same output and port outputs, and the same observable registers. -/
def State.Alike (s t : State) : Prop :=
  s.st = t.st ∧ s.profile = t.profile ∧ s.inputs = t.inputs ∧ s.output = t.output ∧ s.ports = t.ports
    ∧ s.sameRegs t

/-- The number a value stands for: `(-1)^neg * mant * 10^exp`, exactly (30_encoding.md R85). -/
def Decimal.toRat (d : Decimal) : ℚ := (d.signed : ℚ) * (10 : ℚ) ^ d.exp

/-- The number a digit string writes (R146). -/
def digitsValue (ds : ByteString) : Nat := ds.foldl (fun a c => a * 10 + (c.toNat - 0x30)) 0

/-- The signs of the grammar: none, '+' or '-' (R146). -/
def signBytes : Option Bool → ByteString
  | none => []
  | some false => [0x2B#8]
  | some true => [0x2D#8]

/-- The text is `[+|-] digit* [. digit*]` with at least one digit, and `d` is its number: the digits of both
parts as one integer, the exponent minus the count of digits after the point (R146, 92 D16). -/
def IsDecimalText (t : ByteString) (d : Decimal) : Prop :=
  ∃ (sign : Option Bool) (whole frac : ByteString) (point : Bool),
    t = signBytes sign ++ whole ++ (if point then 0x2E#8 :: frac else [])
      ∧ (point = false → frac = [])
      ∧ (∀ c ∈ whole ++ frac, isDigit c = true)
      ∧ 1 ≤ (whole ++ frac).length
      ∧ d = ⟨decide (sign = some true), BitVec.ofNat 24 (digitsValue (whole ++ frac)),
          -(frac.length : Int)⟩

/-- What the source says of MODES and UNITS (92_eei_decisions.md D24): some index names "ACmV", whose range
'0' gives the unit "mV"; some index names "OHM", some range of which gives "Ω" (CE A9). -/
structure MeetsSource (P : Profile) : Prop where
  acmv : ∃ i : Byte, modeName P i = some [0x41#8, 0x43#8, 0x6D#8, 0x56#8]
  acmv_unit : unitOf P [0x41#8, 0x43#8, 0x6D#8, 0x56#8] 0x30#8 = some [0x6D#8, 0x56#8]
  ohm : ∃ i : Byte, modeName P i = some [0x4F#8, 0x48#8, 0x4D#8]
  ohm_unit : ∃ r : Byte, unitOf P [0x4F#8, 0x48#8, 0x4D#8] r = some [0xCE#8, 0xA9#8]

/-- The states a run of the block can be in: both invariants hold. -/
def Safe (s : State) : Prop := s.RegInv ∧ s.BufInv

end Sys2Proof.Machine
end

