-- ==== Sys2Proof/Certificates/Slice0/Obligations.lean ====
section
/-! DEFINITION. The statements for the provers, one definition each. A docstring names the rule of spec/ a
statement formalises. Where a clause speaks of `output`, of the pending inputs or of the free value's counter, it
speaks of the model's form of R25, R27 and R35 (log entries 1, 3, 5, 6). What `ev_kind` holds while `ev_valid` is
0, but for reset, is the model's choice (log entry 8) and no statement rests on it: hence each "there is a k". -/

open Sys2Proof Sys2Proof.Machine

/-! ## Reset and control -/

/-- The state after reset holds the values of 10_state.md R38: SEEK1, `sum`, `n`, `cnt` and the five port
outputs zero, and no buffer byte listed (unspecified). -/
def Obligations.ResetStateHoldsSpecValues : Prop :=
  State.reset.st = .seek1 ∧ State.reset.sum = 0x0000#16 ∧ State.reset.n = 0x00#8 ∧ State.reset.cnt = 0x00#8
    ∧ State.reset.ports.evValid = false ∧ State.reset.ports.evKind = 0#2 ∧ State.reset.ports.evLen = 0#8
    ∧ State.reset.ports.evExpected = 0#16 ∧ State.reset.ports.evComputed = 0#16
    ∧ ∀ i, State.reset.buf.read? i = none

/-- R230: RESET completes in any state, sets every register to its reset value and emits nothing; the profile and
the pending inputs are not affected; `rst` wins over Clear and over a byte in the same cycle. R230 leaves `buf`
unspecified: that every buffer byte reads as the free value afterwards is the model's choice (log entry 5). -/
def Obligations.ResetSetsEveryRegister : Prop :=
  (∀ c, decode c .ctrlReset = .ok .reset)
    ∧ (∀ s : State, ∃ t, exec .reset s = .next t
        ∧ t.st = .seek1 ∧ t.sum = 0x0000#16 ∧ t.n = 0x00#8 ∧ t.cnt = 0x00#8
        ∧ (∀ i, t.bufRead i = Config.bufUnwritten t.era i)
        ∧ t.ports = ⟨false, 0#2, 0#8, 0#16, 0#16⟩ ∧ t.output = none
        ∧ t.profile = s.profile ∧ t.inputs = s.inputs)
    ∧ (∀ (pins : Pins) (s : State), pins.rst = true → portCycle pins s = exec .reset s)

/-- R111: CLEAR sets `st` to SEEK1, emits nothing and writes no other register, so `sum`, `n`, `cnt` and
every buffer byte keep their values; `clear` in the same cycle as a byte wins. -/
def Obligations.ClearReturnsToSeek1 : Prop :=
  (∀ c, decode c .ctrlClear = .ok .clear)
    ∧ (∀ s : State, ∃ k, exec .clear s
        = .next { s with st := .seek1, output := none, ports := ⟨false, k, 0#8, 0#16, 0#16⟩ })
    ∧ (∀ (pins : Pins) (s : State), pins.rst = false → pins.clear = true → portCycle pins s = exec .clear s)

/-! ## The ten byte operations: selection and effect -/

/-- R101: the word 0x0AB under mask 0x3FF is SEEK1.HDR1, which goes to SEEK2 and loads the sum with 0x00AB
whatever it held; no other register changes and no event comes out. -/
def Obligations.Hdr1LoadsSum : Prop :=
  (∀ (c : RowCtx) (w : BitVec 10), w &&& 0x3FF#10 = 0x0AB#10 → decode c (.sync10 w) = .ok .seek1Hdr1)
    ∧ ∀ s : State, ∃ k, exec .seek1Hdr1 s
        = .next { s with st := .seek2, sum := 0x00AB#16, output := none,
                         ports := ⟨false, k, 0#8, 0#16, 0#16⟩ }

/-- R102: a byte other than 0xAB in SEEK1 is SEEK1.SKIP, which changes no register and emits nothing; so
0xCD there is dropped like any other byte and `CD AB CD` finds the header at the second byte. -/
def Obligations.SkipDropsByte : Prop :=
  (∀ (c : RowCtx) (b : Byte), b ≠ 0xAB#8 → decode c (.sync10 (opWord .seek1 b)) = .ok (.seek1Skip b))
    ∧ (∀ (b : Byte) (s : State), ∃ k, exec (.seek1Skip b) s
        = .next { s with output := none, ports := ⟨false, k, 0#8, 0#16, 0#16⟩ })
    ∧ ∀ s : State, s.st = .seek1 → ∃ k, run (feed [0xCD#8, 0xAB#8, 0xCD#8]) s
        = .next ({ s with st := .len, sum := 0x0178#16, output := none,
                          ports := ⟨false, k, 0#8, 0#16, 0#16⟩ }, [])

/-- R103: the word 0x1CD under mask 0x3FF is SEEK2.HDR2, which goes to LEN and adds 0xCD to the sum modulo
2^16; from the sum 0x00AB that gives 0x0178. -/
def Obligations.Hdr2EntersLen : Prop :=
  (∀ (c : RowCtx) (w : BitVec 10), w &&& 0x3FF#10 = 0x1CD#10 → decode c (.sync10 w) = .ok .seek2Hdr2)
    ∧ (∀ s : State, ∃ k, exec .seek2Hdr2 s
        = .next { s with st := .len, sum := BitVec.ofNat 16 (s.sum.toNat + 0xCD), output := none,
                         ports := ⟨false, k, 0#8, 0#16, 0#16⟩ })
    ∧ ∀ s t : State, s.sum = 0x00AB#16 → exec .seek2Hdr2 s = .next t → t.sum = 0x0178#16

/-- R104: a byte other than 0xCD in SEEK2 is SEEK2.MISS, which goes to SEEK1, emits nothing and keeps the
sum; the byte is not matched again, so `AB AB CD` does not sync. -/
def Obligations.MissConsumesByte : Prop :=
  (∀ (c : RowCtx) (b : Byte), b ≠ 0xCD#8 → decode c (.sync10 (opWord .seek2 b)) = .ok (.seek2Miss b))
    ∧ (∀ (b : Byte) (s : State), ∃ k, exec (.seek2Miss b) s
        = .next { s with st := .seek1, output := none, ports := ⟨false, k, 0#8, 0#16, 0#16⟩ })
    ∧ ∀ s : State, s.st = .seek1 → ∃ k, run (feed [0xAB#8, 0xAB#8, 0xCD#8]) s
        = .next ({ s with st := .seek1, sum := 0x00AB#16, output := none,
                          ports := ⟨false, k, 0#8, 0#16, 0#16⟩ }, [])

/-- R105: a byte of 0x02 or more in LEN is LEN.OK, which takes it as `n`, clears `cnt`, adds it to the sum
modulo 2^16 and goes to PAYLOAD; the buffer is not cleared; after 0x02 the next byte is a checksum byte, and
after 0xFF exactly 253 bytes (`cnt` 0 to 252) are payload. -/
def Obligations.LenOkStartsPayload : Prop :=
  (∀ (c : RowCtx) (b : Byte), 2 ≤ b.toNat → decode c (.sync10 (opWord .len b)) = .ok (.lenOk b))
    ∧ (∀ (b : Byte) (s : State), ∃ k, exec (.lenOk b) s
        = .next { s with st := .payload, n := b, cnt := 0#8, sum := BitVec.ofNat 16 (s.sum.toNat + b.toNat),
                         output := none, ports := ⟨false, k, 0#8, 0#16, 0#16⟩ })
    ∧ (∀ (b : Byte) (s t : State), exec (.lenOk 0x02#8) s = .next t →
        decode t.rowCtx (.sync10 (opWord .payload b)) = .ok (.payloadCkhi b))
    ∧ ∀ (b : Byte) (s t : State), exec (.lenOk 0xFF#8) s = .next t →
        (∀ c : Byte, c.toNat < 253 →
          decode { t.rowCtx with cnt := c } (.sync10 (opWord .payload b)) = .ok (.payloadData b))
        ∧ decode { t.rowCtx with cnt := 253#8 } (.sync10 (opWord .payload b)) = .ok (.payloadCkhi b)

/-- R106: a word that matches 0x200 under mask 0x3FE is LEN.BAD, which goes to SEEK1 and emits LENGTH_ERROR
with the byte; `n`, `cnt`, `sum` and the buffer are not written. -/
def Obligations.LenBadReportsLength : Prop :=
  (∀ (c : RowCtx) (w : BitVec 10), w &&& 0x3FE#10 = 0x200#10 →
      decode c (.sync10 w) = .ok (.lenBad (wordByte w)) ∧ (wordByte w = 0x00#8 ∨ wordByte w = 0x01#8))
    ∧ ∀ (b : Byte) (s : State), exec (.lenBad b) s
        = .next { s with st := .seek1, output := some (.event (.lengthError b)),
                         ports := ⟨true, 2#2, b, 0#16, 0#16⟩ }

/-- R107: with `cnt < n - 2` a byte in PAYLOAD is PAYLOAD.DATA, which writes it at `cnt`, adds it to the sum
modulo 2^16 and increments `cnt`; `st` stays PAYLOAD; never taken when `n` = 2. -/
def Obligations.DataBuffersAndSums : Prop :=
  (∀ (c : RowCtx) (b : Byte), c.cnt.toNat + 2 < c.n.toNat →
      decode c (.sync10 (opWord .payload b)) = .ok (.payloadData b))
    ∧ (∀ (c : RowCtx) (b : Byte), c.n = 2#8 → decode c (.sync10 (opWord .payload b)) ≠ .ok (.payloadData b))
    ∧ ∀ (b : Byte) (s : State), s.cnt.toNat < 255 → ∃ k, exec (.payloadData b) s
        = .next { s with buf := s.buf.write s.cnt.toNat b, sum := BitVec.ofNat 16 (s.sum.toNat + b.toNat),
                         cnt := BitVec.ofNat 8 (s.cnt.toNat + 1), output := none,
                         ports := ⟨false, k, 0#8, 0#16, 0#16⟩ }

/-- R108: with `cnt = n - 2` a byte in PAYLOAD is PAYLOAD.CKHI, which writes it at `cnt` and increments
`cnt`; the sum is not updated; when `n` = 2 it is the first byte after the length byte. -/
def Obligations.CkhiBuffersWithoutSum : Prop :=
  (∀ (c : RowCtx) (b : Byte), c.cnt.toNat + 2 = c.n.toNat →
      decode c (.sync10 (opWord .payload b)) = .ok (.payloadCkhi b))
    ∧ (∀ (c : RowCtx) (b : Byte), c.n = 2#8 → c.cnt = 0#8 →
      decode c (.sync10 (opWord .payload b)) = .ok (.payloadCkhi b))
    ∧ ∀ (b : Byte) (s : State), s.cnt.toNat < 255 → ∃ k, exec (.payloadCkhi b) s
        = .next { s with buf := s.buf.write s.cnt.toNat b, cnt := BitVec.ofNat 8 (s.cnt.toNat + 1),
                         output := none, ports := ⟨false, k, 0#8, 0#16, 0#16⟩ }

/-- R109: with `cnt = n - 1` and the sum equal to the big-endian checksum, the byte is PAYLOAD.CKLO_OK,
which buffers it, makes `cnt` equal to `n`, emits FRAME with the first `n - 2` buffered bytes and their
count, and goes to SEEK1; `n` = 2 gives the empty payload. -/
def Obligations.CkloOkEmitsFrame : Prop :=
  ∀ (b : Byte) (s : State), 2 ≤ s.n.toNat → s.cnt.toNat + 1 = s.n.toNat →
    s.sum.toNat = (s.bufRead (s.n.toNat - 2)).toNat * 256 + b.toNat →
    decode s.rowCtx (.sync10 (opWord .payload b)) = .ok (.payloadCkloOk b)
      ∧ exec (.payloadCkloOk b) s
        = .next { s with
            buf := s.buf.write s.cnt.toNat b
            cnt := s.n
            output := some (.event (.frame ((List.range (s.n.toNat - 2)).map s.bufRead)
              (BitVec.ofNat 8 (s.n.toNat - 2))))
            ports := ⟨true, 0#2, BitVec.ofNat 8 (s.n.toNat - 2), s.sum, s.sum⟩
            st := .seek1 }
      ∧ (s.n = 2#8 → (List.range (s.n.toNat - 2)).map s.bufRead = [])

/-- R110: with `cnt = n - 1` and the sum different from the big-endian checksum, the byte is
PAYLOAD.CKLO_BAD, which buffers it, makes `cnt` equal to `n`, emits CHECKSUM_ERROR with the received and the
computed checksum, and goes to SEEK1; the payload is not emitted. -/
def Obligations.CkloBadReportsChecksum : Prop :=
  ∀ (b : Byte) (s : State), 2 ≤ s.n.toNat → s.cnt.toNat + 1 = s.n.toNat →
    s.sum.toNat ≠ (s.bufRead (s.n.toNat - 2)).toNat * 256 + b.toNat →
    decode s.rowCtx (.sync10 (opWord .payload b)) = .ok (.payloadCkloBad b)
      ∧ exec (.payloadCkloBad b) s
        = .next { s with
            buf := s.buf.write s.cnt.toNat b
            cnt := s.n
            output := some (.event (.checksumError
              (BitVec.ofNat 16 ((s.bufRead (s.n.toNat - 2)).toNat * 256 + b.toNat)) s.sum))
            ports := ⟨true, 1#2, 0#8,
              BitVec.ofNat 16 ((s.bufRead (s.n.toNat - 2)).toNat * 256 + b.toNat), s.sum⟩
            st := .seek1 }

/-- DECODE with a profile loaded completes on every payload: the result of decode(P, p) is returned, and no
register, port output, profile or pending input changes; before a profile is loaded it is refused by name
(R140, R153, R232). -/
def Obligations.DecodeAnswersWithProfile : Prop :=
  (∀ (c : RowCtx) (p : ByteString), decode c (.decode p) = .ok (.decode p))
    ∧ (∀ (p : ByteString) (s : State) (P : Profile), s.profile = some P →
        exec (.decode p) s = .next { s with output := some (.decoded (decodePayload P p)) })
    ∧ ∀ (p : ByteString) (s : State), s.profile = none → exec (.decode p) s = .refused .profileNotLoaded

/-! ## Frames -/

/-- The operations that store nothing and are not RESET: every buffer byte reads as before, and the profile,
the pending inputs and the free value's counter are unchanged. -/
def Obligations.NonStoringOpsKeepBuffer : Prop :=
  ∀ (i : Instr) (s t : State),
    (i = .seek1Hdr1 ∨ (∃ b, i = .seek1Skip b) ∨ i = .seek2Hdr2 ∨ (∃ b, i = .seek2Miss b)
      ∨ (∃ b, i = .lenBad b) ∨ (∃ b, i = .lenOk b) ∨ i = .clear ∨ ∃ p, i = .decode p) →
    exec i s = .next t →
    (∀ a, t.bufRead a = s.bufRead a) ∧ t.profile = s.profile ∧ t.inputs = s.inputs ∧ t.era = s.era

/-- The four PAYLOAD operations store one byte, at index `cnt` (R51): every other buffer byte reads as
before; `n`, the profile, the pending inputs and the free value's counter are unchanged; `cnt` advances. -/
def Obligations.PayloadOpsStoreOneByte : Prop :=
  ∀ (i : Instr) (b : Byte) (s t : State),
    (i = .payloadData b ∨ i = .payloadCkhi b ∨ i = .payloadCkloOk b ∨ i = .payloadCkloBad b) →
    exec i s = .next t →
    t.bufRead s.cnt.toNat = b ∧ (∀ a, a ≠ s.cnt.toNat → t.bufRead a = s.bufRead a)
      ∧ t.cnt.toNat = s.cnt.toNat + 1 ∧ t.n = s.n ∧ t.profile = s.profile ∧ t.inputs = s.inputs
      ∧ t.era = s.era ∧ (i ≠ .payloadData b → t.sum = s.sum)

/-- R31: no operation and no step writes the profile. -/
def Obligations.ProfileIsImmutable : Prop :=
  (∀ (i : Instr) (s t : State), exec i s = .next t → t.profile = s.profile)
    ∧ ∀ s t : State, step s = .next t → t.profile = s.profile

/-! ## Encoding -/

/-- Operation words written out from R74 to R76 decode to their rows (R76), and the wire constants of R92
are the frames of their payloads. -/
def Obligations.TableWordsDecode : Prop :=
  decode ⟨0#8, 3#8, 0#16, 0#8⟩ (.sync10 0b0010101011#10) = .ok .seek1Hdr1
    ∧ decode ⟨0#8, 3#8, 0#16, 0#8⟩ (.sync10 0b0011001101#10) = .ok (.seek1Skip 0xCD#8)
    ∧ decode ⟨0#8, 3#8, 0#16, 0#8⟩ (.sync10 0b0111001101#10) = .ok .seek2Hdr2
    ∧ decode ⟨0#8, 3#8, 0#16, 0#8⟩ (.sync10 0b1000000001#10) = .ok (.lenBad 0x01#8)
    ∧ decode ⟨0#8, 3#8, 0#16, 0#8⟩ (.sync10 0b1000000010#10) = .ok (.lenOk 0x02#8)
    ∧ decode ⟨0#8, 3#8, 0x017B#16, 0#8⟩ (.sync10 0b1101011111#10) = .ok (.payloadData 0x5F#8)
    ∧ decode ⟨2#8, 3#8, 0x01DA#16, 1#8⟩ (.sync10 0b1111011010#10) = .ok (.payloadCkloOk 0xDA#8)
    ∧ decode ⟨2#8, 3#8, 0x01DA#16, 1#8⟩ (.sync10 0b1111011011#10) = .ok (.payloadCkloBad 0xDB#8)
    ∧ frameBytes [0x5F#8] = [0xAB#8, 0xCD#8, 0x03#8, 0x5F#8, 0x01#8, 0xDA#8]
    ∧ frameBytes [0x5E#8] = [0xAB#8, 0xCD#8, 0x03#8, 0x5E#8, 0x01#8, 0xD9#8]

/-- R76: the operation map. Every word, in every context that R26 allows, hits exactly one row of the table
and is decoded to that row's operation with the word's byte; the rows are those listed; the control inputs
and DECODE select their own operations. -/
def Obligations.OperationMapSelectsOneRow : Prop :=
  (∀ (c : RowCtx) (w : BitVec 10), (wordState w = .payload → 2 ≤ c.n.toNat ∧ c.cnt.toNat + 1 ≤ c.n.toNat) →
      ∃ k, k < opTable.length
        ∧ (∃ r, opTable[k]? = some r ∧ r.hits c w = true ∧ decode c (.sync10 w) = .ok (r.make (wordByte w)))
        ∧ ∀ j r, opTable[j]? = some r → r.hits c w = true → j = k)
    ∧ (∀ (c : RowCtx) (b : Byte),
        decode c (.sync10 (opWord .seek1 b)) = .ok (if b = 0xAB#8 then .seek1Hdr1 else .seek1Skip b)
        ∧ decode c (.sync10 (opWord .seek2 b)) = .ok (if b = 0xCD#8 then .seek2Hdr2 else .seek2Miss b)
        ∧ decode c (.sync10 (opWord .len b))
            = .ok (if b = 0x00#8 ∨ b = 0x01#8 then .lenBad b else .lenOk b)
        ∧ (c.cnt.toNat + 2 < c.n.toNat →
            decode c (.sync10 (opWord .payload b)) = .ok (.payloadData b))
        ∧ (c.cnt.toNat + 2 = c.n.toNat →
            decode c (.sync10 (opWord .payload b)) = .ok (.payloadCkhi b))
        ∧ (c.cnt.toNat + 1 = c.n.toNat → c.sum.toNat = c.ckHi.toNat * 256 + b.toNat →
            decode c (.sync10 (opWord .payload b)) = .ok (.payloadCkloOk b))
        ∧ (c.cnt.toNat + 1 = c.n.toNat → c.sum.toNat ≠ c.ckHi.toNat * 256 + b.toNat →
            decode c (.sync10 (opWord .payload b)) = .ok (.payloadCkloBad b)))
    ∧ (∀ c : RowCtx, decode c .ctrlClear = .ok .clear ∧ decode c .ctrlReset = .ok .reset
        ∧ ∀ p, decode c (.decode p) = .ok (.decode p))

/-- Decoding the encoding of a well-formed operation, in any context in which its row's condition holds,
gives the operation back, with every operand. -/
def Obligations.DecodeInvertsEncode : Prop :=
  ∀ (i : Instr) (c : RowCtx), i.wf = true → i.applies c = true → decode c (encode i) = .ok i

/-- Each code has one meaning in a context: what decodes to an operation is that operation's encoding, and
the operation is well-formed and its row's condition holds. -/
def Obligations.EncodeInvertsDecode : Prop :=
  ∀ (c : RowCtx) (x : Code) (i : Instr),
    decode c x = .ok i → encode i = x ∧ i.wf = true ∧ i.applies c = true

/-- The wire form of a command (R91, R92): `AB CD 03 op` and `op + 379` big-endian is the valid frame of the
payload `[op]`, and fed from SEEK1 it yields FRAME([op]) and nothing else; the two outbound constants of R92
are such frames. -/
def Obligations.CommandFramesAreValidFrames : Prop :=
  (∀ op : Byte, commandFrame op = frameBytes [op] ∧ op.toNat + 379 ≤ 634)
    ∧ (∀ (op : Byte) (s : State), s.st = .seek1 →
        ∃ t, run (feed (commandFrame op)) s = .next (t, [.frame [op] 1#8]) ∧ t.st = .seek1)
    ∧ commandFrame 0x5F#8 = [0xAB#8, 0xCD#8, 0x03#8, 0x5F#8, 0x01#8, 0xDA#8]
    ∧ commandFrame 0x5E#8 = [0xAB#8, 0xCD#8, 0x03#8, 0x5E#8, 0x01#8, 0xD9#8]

/-! ## The step -/

/-- A step takes the oldest pending input: when its code decodes to an operation, the step is `exec` of that
operation with the input taken off the queue; with nothing pending the block is idle and changes no register, no
buffer byte and no profile (R100, R212; the queue and the idle step are the model's form, log entries 1, 2). That
a step whose code decodes to no operation stops with the fault `noOperation` is the model's choice (log entry 9):
R76 has no row for those states, which R26 rules out. -/
def Obligations.StepRunsDecodedInput : Prop :=
  (∀ (s : State) (i : Input) (rest : List Input) (instr : Instr), s.inputs = i :: rest →
      decode s.rowCtx (i.code s.st) = .ok instr → step s = exec instr { s with inputs := rest })
    ∧ (∀ (s : State) (i : Input) (rest : List Input) (r : Reject), s.inputs = i :: rest →
      decode s.rowCtx (i.code s.st) = .error r → step s = .fault .noOperation)
    ∧ ∀ s : State, s.inputs = [] →
        ∃ k, step s = .next { s with output := none, ports := ⟨false, k, 0#8, 0#16, 0#16⟩ }

/-- Stepping the machine over a queue of inputs is R100's `run` over them: the same next state, with the
rest of the queue pending. -/
def Obligations.SteppingTheQueueIsRun : Prop :=
  ∀ (is rest : List Input) (s t : State) (es : List Event), run is s = .next (t, es) →
    Host.Core.run Sys2Proof.core is.length { s with inputs := is ++ rest } = .next { t with inputs := rest }

/-- R100: a synchronizer step is total: from every state that meets R26, every Byte, Clear and Reset gives a
next state; none is refused and none stops. The same holds of DECODE once a profile is loaded. -/
def Obligations.EveryInputHasASuccessor : Prop :=
  ∀ (s : State) (i : Input), s.RegInv → (s.profile ≠ none ∨ ∀ p, i ≠ .decode p) → ∃ t, stepInput i s = .next t

/-- Which steps stop: from a state that meets R26 no step faults, and a step is refused only when it takes a
DECODE with no profile loaded (R232). -/
def Obligations.StepsStopOnlyWithoutProfile : Prop :=
  ∀ s : State, s.RegInv →
    (∀ r, step s ≠ .fault r)
      ∧ ∀ r, step s = .refused r →
          r = .profileNotLoaded ∧ s.profile = none ∧ ∃ p rest, s.inputs = .decode p :: rest

/-! ## Invariants -/

/-- The reset state meets the invariants of R26 and the buffer's. -/
def Obligations.ResetMeetsInvariants : Prop := Safe State.reset

/-- R26: the invariants (a) to (e) hold after reset and are kept by every step, from every state that meets
them. -/
def Obligations.RegisterInvariantsKept : Prop :=
  State.reset.RegInv ∧ ∀ s t : State, s.RegInv → step s = .next t → t.RegInv

/-- Every step keeps the buffer's canonical form, and in PAYLOAD every index below `cnt` has been written:
so every index that a checksum step reads has (R52). -/
def Obligations.BufferInvariantKept : Prop :=
  (∀ s t : State, s.BufInv → step s = .next t → t.BufInv)
    ∧ ∀ s : State, s.BufInv → s.st = .payload → 2 ≤ s.n.toNat → s.cnt.toNat + 1 = s.n.toNat →
        ∀ i, i ≤ s.n.toNat - 2 → (s.buf.read? i).isSome = true

/-- What the host cannot observe: two states that agree on the state register, the profile, the pending
inputs, the outputs and the registers still readable (R25, R38: in SEEK1 none of `sum`, `n`, `cnt`, `buf`)
step alike, with the same outputs, faults and refusals. -/
def Obligations.HiddenRegistersNeverShow : Prop :=
  ∀ s t : State, s.Alike t →
    (∀ s', step s = .next s' → ∃ t', step t = .next t' ∧ s'.Alike t')
      ∧ (∀ r, step s = .fault r → step t = .fault r)
      ∧ ∀ r, step s = .refused r → step t = .refused r

/-! ## Rules of the whole synchronizer -/

/-- R112: FRAME comes only from PAYLOAD.CKLO_OK, CHECKSUM_ERROR only from PAYLOAD.CKLO_BAD, LENGTH_ERROR only
from LEN.BAD, every other operation emits nothing, and an event always leaves SEEK1. -/
def Obligations.EventsComeFromTheirRows : Prop :=
  ∀ (i : Instr) (s t : State), exec i s = .next t →
    (∀ p l, t.event? = some (.frame p l) → ∃ b, i = .payloadCkloOk b)
      ∧ (∀ e c, t.event? = some (.checksumError e c) → ∃ b, i = .payloadCkloBad b)
      ∧ (∀ n, t.event? = some (.lengthError n) → ∃ b, i = .lenBad b)
      ∧ ∀ e, t.event? = some e → t.st = .seek1

/-- R113: from SEEK1, a frame with 2 <= N <= 255 and the right checksum produces exactly one event, FRAME of
its payload, at its last byte, and leaves SEEK1. -/
def Obligations.ValidFrameYieldsOneFrame : Prop :=
  ∀ (s : State) (p : ByteString) (hi lo : Byte), s.st = .seek1 → p.length + 2 ≤ 255 →
    hi.toNat * 256 + lo.toNat = (0xAB + 0xCD + (p.length + 2) + byteSum p) % 2 ^ 16 →
    (∃ t, run (feed ([0xAB#8, 0xCD#8, BitVec.ofNat 8 (p.length + 2)] ++ p ++ [hi, lo])) s
        = .next (t, [.frame p (BitVec.ofNat 8 p.length)]) ∧ t.st = .seek1)
      ∧ ∀ k, k < p.length + 5 →
          ∃ u, run (feed (([0xAB#8, 0xCD#8, BitVec.ofNat 8 (p.length + 2)] ++ p ++ [hi, lo]).take k)) s
            = .next (u, [])

/-- R114: from SEEK1, a frame whose checksum field is wrong produces exactly one event, CHECKSUM_ERROR, at its
last byte, and leaves SEEK1; a valid frame right after it is then found. -/
def Obligations.CorruptedFrameResynchronises : Prop :=
  ∀ (s : State) (p q : ByteString) (hi lo : Byte), s.st = .seek1 → p.length + 2 ≤ 255 → q.length + 2 ≤ 255 →
    hi.toNat * 256 + lo.toNat ≠ (0xAB + 0xCD + (p.length + 2) + byteSum p) % 2 ^ 16 →
    (∃ t, run (feed ([0xAB#8, 0xCD#8, BitVec.ofNat 8 (p.length + 2)] ++ p ++ [hi, lo])) s
        = .next (t, [.checksumError (BitVec.ofNat 16 (hi.toNat * 256 + lo.toNat))
            (BitVec.ofNat 16 (0xAB + 0xCD + (p.length + 2) + byteSum p))]) ∧ t.st = .seek1)
      ∧ (∀ k, k < p.length + 5 →
          ∃ u, run (feed (([0xAB#8, 0xCD#8, BitVec.ofNat 8 (p.length + 2)] ++ p ++ [hi, lo]).take k)) s
            = .next (u, []))
      ∧ ∃ t, run (feed ([0xAB#8, 0xCD#8, BitVec.ofNat 8 (p.length + 2)] ++ p ++ [hi, lo] ++ frameBytes q)) s
          = .next (t, [.checksumError (BitVec.ofNat 16 (hi.toNat * 256 + lo.toNat))
              (BitVec.ofNat 16 (0xAB + 0xCD + (p.length + 2) + byteSum p)),
              .frame q (BitVec.ofNat 8 q.length)]) ∧ t.st = .seek1

/-- Events come out in the order of the frames in the stream (R61): any number of valid frames back to back,
fed from SEEK1, yield exactly their FRAME events, in order, and leave SEEK1. -/
def Obligations.BackToBackFramesAllFound : Prop :=
  ∀ (s : State) (ps : List ByteString), s.st = .seek1 → (∀ p ∈ ps, p.length + 2 ≤ 255) →
    ∃ t, run (feed (ps.flatMap frameBytes)) s
        = .next (t, ps.map fun p => .frame p (BitVec.ofNat 8 p.length)) ∧ t.st = .seek1

/-- Noise before a frame is dropped without an event (R102, R205): from SEEK1, bytes other than 0xAB and then
a valid frame yield that frame's FRAME alone. -/
def Obligations.NoiseThenFrameFound : Prop :=
  ∀ (s : State) (noise p : ByteString), s.st = .seek1 → (∀ b ∈ noise, b ≠ 0xAB#8) → p.length + 2 ≤ 255 →
    ∃ t, run (feed (noise ++ frameBytes p)) s = .next (t, [.frame p (BitVec.ofNat 8 p.length)])
      ∧ t.st = .seek1

/-- R116: the running sum never wraps. A frame's sum is at most 0xFE7A, reached by 253 bytes of 0xFF; in every
state that meets R26 the additions of SEEK2.HDR2, LEN.OK and PAYLOAD.DATA stay below 2^16; and two payloads
that are permutations of each other have the same checksum. -/
def Obligations.RunningSumNeverWraps : Prop :=
  (∀ p : ByteString, p.length + 2 ≤ 255 →
      0xAB + 0xCD + (p.length + 2) + byteSum p ≤ 0xFE7A
        ∧ (frameChecksum p).toNat = 0xAB + 0xCD + (p.length + 2) + byteSum p)
    ∧ (frameChecksum (List.replicate 253 0xFF#8)).toNat = 0xFE7A
    ∧ (∀ (s : State) (b : Byte), s.RegInv →
        (s.st = .seek2 → s.sum.toNat + 0xCD < 2 ^ 16)
        ∧ (s.st = .len → s.sum.toNat + b.toNat < 2 ^ 16)
        ∧ (s.st = .payload → s.cnt.toNat + 2 < s.n.toNat → s.sum.toNat + b.toNat < 2 ^ 16))
    ∧ ∀ p q : ByteString, p.Perm q → frameChecksum p = frameChecksum q

/-- R117: after a header the synchronizer takes exactly N + 1 more bytes before it is in SEEK1 again, whatever
their values, or 1 byte if N < 2; N + 1 is at most 256. -/
def Obligations.BytesPerFrame : Prop :=
  (∀ (s : State) (N : Byte) (bs : ByteString), s.st = .len → 2 ≤ N.toNat → bs.length = N.toNat →
      (∃ t es, run (feed (N :: bs)) s = .next (t, es) ∧ t.st = .seek1)
        ∧ ∀ k, k ≤ N.toNat → ∃ u es, run (feed ((N :: bs).take k)) s = .next (u, es) ∧ u.st ≠ .seek1)
    ∧ (∀ (s : State) (N : Byte), s.st = .len → N.toNat < 2 →
        ∃ t es, run (feed [N]) s = .next (t, es) ∧ t.st = .seek1)
    ∧ ∀ N : Byte, N.toNat + 1 ≤ 256

/-- R115: in PAYLOAD every byte, 0xAB included, is data: from a state that meets R26 it is stored at `cnt`,
`cnt` advances, and the synchronizer stays in PAYLOAD until the last byte and is then in SEEK1. -/
def Obligations.EveryPayloadByteIsData : Prop :=
  ∀ (s : State) (b : Byte), s.RegInv → s.st = .payload →
    ∃ t, stepInput (.byte b) s = .next t ∧ t.bufRead s.cnt.toNat = b ∧ t.cnt.toNat = s.cnt.toNat + 1
      ∧ (s.cnt.toNat + 1 < s.n.toNat → t.st = .payload ∧ t.event? = none)
      ∧ (s.cnt.toNat + 1 = s.n.toNat → t.st = .seek1 ∧ t.event? ≠ none)

/-- The stray header byte (R235): from SEEK1, `AB AB CD` and then any bytes without an 0xAB leave SEEK1 with no
event: the frame that follows the stray byte is missed and nothing signals it. -/
def Obligations.StrayHeaderByteMissesFrame : Prop :=
  ∀ (s : State) (rest : ByteString), s.st = .seek1 → (∀ b ∈ rest, b ≠ 0xAB#8) →
    ∃ t, run (feed ([0xAB#8, 0xAB#8, 0xCD#8] ++ rest)) s = .next (t, []) ∧ t.st = .seek1

/-- A truncated frame (R234): in PAYLOAD, fewer bytes than the frame still needs give no event and leave
PAYLOAD; a Clear then gives SEEK1. -/
def Obligations.TruncatedFrameWaits : Prop :=
  ∀ (s : State) (bs : ByteString), s.RegInv → s.st = .payload → s.cnt.toNat + bs.length < s.n.toNat →
    ∃ t, run (feed bs) s = .next (t, []) ∧ t.st = .payload
      ∧ ∃ u, run (feed bs ++ [.clear]) s = .next (u, []) ∧ u.st = .seek1

/-- The limit of the checksum (R237): a payload of the same length and the same byte sum is accepted under the
other payload's checksum; in particular any permutation of it. -/
def Obligations.ChecksumMissesReordering : Prop :=
  (∀ (s : State) (p q : ByteString), s.st = .seek1 → p.length + 2 ≤ 255 → q.length = p.length →
      byteSum q = byteSum p →
      ∃ t, run (feed (frameWith q (frameChecksum p))) s = .next (t, [.frame q (BitVec.ofNat 8 q.length)]))
    ∧ ∀ (s : State) (p q : ByteString), s.st = .seek1 → p.length + 2 ≤ 255 → p.Perm q →
      ∃ t, run (feed (frameWith q (frameChecksum p))) s = .next (t, [.frame q (BitVec.ofNat 8 q.length)])

/-- Chunk boundaries are not seen (R66): processing the chunks of a stream one after another, from any state,
has the outcome and the events of feeding their concatenation. -/
def Obligations.ChunksAreInvisible : Prop :=
  ∀ (chunks : List ByteString) (s : State), runChunks chunks s = run (feed chunks.flatten) s

/-! ## Ports -/

/-- R203(b), R36, R239: in one cycle Reset takes precedence over Clear and Clear over a byte, and the byte
dropped raises nothing; with no input the event outputs alone return to zero. -/
def Obligations.PortPriority : Prop :=
  ∀ (pins : Pins) (s : State),
    (pins.rst = true → portCycle pins s = exec .reset s)
      ∧ (pins.rst = false → pins.clear = true → portCycle pins s = exec .clear s)
      ∧ (pins.rst = false → pins.clear = false → pins.inValid = true →
          portCycle pins s = stepInput (.byte pins.inByte) s)
      ∧ (pins.rst = false → pins.clear = false → pins.inValid = false →
          ∃ k, portCycle pins s = .next { s with output := none, ports := ⟨false, k, 0#8, 0#16, 0#16⟩ })

/-- The port outputs after a cycle carry the cycle's event (R36, R83): FRAME with code 0, its length, and the
checksum twice; CHECKSUM_ERROR with code 1 and both sums; LENGTH_ERROR with code 2 and the byte; with no event
`ev_valid` and every other output but `ev_kind` are zero. -/
def Obligations.PortsCarryTheEvent : Prop :=
  ∀ (pins : Pins) (s t : State), portCycle pins s = .next t →
    (∀ p l, t.event? = some (.frame p l) → t.ports = ⟨true, 0#2, l, t.sum, t.sum⟩)
      ∧ (∀ e c, t.event? = some (.checksumError e c) → t.ports = ⟨true, 1#2, 0#8, e, c⟩ ∧ c = t.sum ∧ e ≠ c)
      ∧ (∀ n, t.event? = some (.lengthError n) → t.ports = ⟨true, 2#2, n, 0#16, 0#16⟩ ∧ n.toNat < 2)
      ∧ (t.event? = none → ∃ k, t.ports = ⟨false, k, 0#8, 0#16, 0#16⟩)

/-- Buffer reuse (R238): from SEEK1, three bytes taken leave every byte of the read port as it was; the bytes
`AB CD N b` with a legal N put `b` at index 0. -/
def Obligations.BufferKeptForThreeBytes : Prop :=
  (∀ (s t : State) (bs : ByteString) (es : List Event), s.st = .seek1 → bs.length ≤ 3 →
      run (feed bs) s = .next (t, es) → ∀ a, plData a t = plData a s)
    ∧ ∀ (s : State) (N b : Byte), s.st = .seek1 → 2 ≤ N.toNat →
        ∃ t es, run (feed [0xAB#8, 0xCD#8, N, b]) s = .next (t, es) ∧ plData 0#8 t = b

/-- The path from wire to measurement (R37, R140, R238): with a profile loaded, a valid frame of 14 or more payload
bytes fed from SEEK1 gives FRAME of that payload; then the port-level decoder over `buf[0..13]` and a DECODE of the
frame both give decode(P, p), the DECODE changes nothing but the returned result, and the port-level decoder still
gives decode(P, p) after up to three more bytes, whatever they are, the next frame's length byte included. R37 calls
the port-level outputs valid while `buf[0..13]` holds the payload: that they are valid after a FRAME of more than 14
bytes too is the model's inference (DEDUCED from R141, which ignores the bytes after byte 13; log entry 19). -/
def Obligations.MeasurementFrameDecodes : Prop :=
  ∀ (s : State) (P : Profile) (p : ByteString), s.st = .seek1 → s.profile = some P → 14 ≤ p.length →
    p.length + 2 ≤ 255 →
    ∃ t, run (feed (frameBytes p)) s = .next (t, [.frame p (BitVec.ofNat 8 p.length)])
      ∧ portDecode t = some (decodePayload P p)
      ∧ exec (.decode p) t = .next { t with output := some (.decoded (decodePayload P p)) }
      ∧ ∀ bs : ByteString, bs.length ≤ 3 →
          ∃ u es, run (feed bs) t = .next (u, es) ∧ portDecode u = some (decodePayload P p)

/-! ## The measurement decoder -/

/-- R153: DECODE reads only its payload and the profile and writes nothing: two states with the same profile,
whatever their synchronizers, return the same result, and decoding twice gives the same state again. -/
def Obligations.DecodeIsPure : Prop :=
  (∀ (p : ByteString) (s s' t : State), s.profile = t.profile → exec (.decode p) s = .next s' →
      ∃ t', exec (.decode p) t = .next t' ∧ t'.output = s'.output
        ∧ s' = { s with output := s'.output } ∧ t' = { t with output := t'.output })
    ∧ ∀ (p : ByteString) (s t : State), exec (.decode p) s = .next t → exec (.decode p) t = .next t

/-- The errors of DECODE and their precedence (R141, R142, R144, R146, R203(c)): SHORT_PAYLOAD exactly for fewer
than 14 bytes; UNKNOWN_MODE exactly for 14 bytes or more with byte 0 at or above N_MODES; BAD_DISPLAY exactly
otherwise, for a non-ASCII display byte, or a text that is neither a marker nor a decimal number. -/
def Obligations.DecodeErrorsInStepOrder : Prop :=
  ∀ (P : Profile) (p : ByteString),
    (decodePayload P p = .err .shortPayload ↔ p.length < 14)
      ∧ (decodePayload P p = .err .unknownMode ↔ 14 ≤ p.length ∧ P.modes.length ≤ (p.headD 0#8).toNat)
      ∧ (decodePayload P p = .err .badDisplay ↔
          14 ≤ p.length ∧ (p.headD 0#8).toNat < P.modes.length
            ∧ ((∃ c ∈ (p.drop 2).take 7, 0x80 ≤ c.toNat)
              ∨ (((p.drop 2).take 7).filter (· ≠ 0x20#8) ∉ P.overloadMarkers
                  ∧ ∀ d, ¬ IsDecimalText (((p.drop 2).take 7).filter (· ≠ 0x20#8)) d)))

/-- R156: for every profile and every byte sequence, DECODE returns Ok or exactly one error code; Ok exactly for
14 bytes or more, a known mode, an ASCII display, and a text that is a marker or a decimal number. The numeric
codes are those of R84. -/
def Obligations.DecodeIsTotal : Prop :=
  ∀ (P : Profile) (p : ByteString),
    ((∃ m, decodePayload P p = .ok m) ∨ decodePayload P p = .err .shortPayload
        ∨ decodePayload P p = .err .unknownMode ∨ decodePayload P p = .err .badDisplay)
      ∧ ((∃ m, decodePayload P p = .ok m) ↔
          14 ≤ p.length ∧ (p.headD 0#8).toNat < P.modes.length
            ∧ (∀ c ∈ (p.drop 2).take 7, c.toNat < 0x80)
            ∧ (((p.drop 2).take 7).filter (· ≠ 0x20#8) ∈ P.overloadMarkers
                ∨ ∃ d, IsDecimalText (((p.drop 2).take 7).filter (· ≠ 0x20#8)) d))
      ∧ ((decodePayload P p).code = 0#2 ↔ ∃ m, decodePayload P p = .ok m)
      ∧ ((decodePayload P p).code = 1#2 ↔ decodePayload P p = .err .shortPayload)
      ∧ ((decodePayload P p).code = 2#2 ↔ decodePayload P p = .err .unknownMode)
      ∧ ((decodePayload P p).code = 3#2 ↔ decodePayload P p = .err .badDisplay)

/-- The plain fields of a measurement (R142, R143, R144, R150): the mode is byte 0 and is below N_MODES, the range
code is byte 1, the text is bytes 2 to 8 without spaces, and progress is byte 9 times ten plus byte 10. -/
def Obligations.PlainFieldsComeFromTheirBytes : Prop :=
  ∀ (P : Profile) (p : ByteString) (m : Measurement), decodePayload P p = .ok m →
    p[0]? = some m.mode ∧ m.mode.toNat < P.modes.length ∧ p[1]? = some m.rangeCode
      ∧ m.displayText = ((p.drop 2).take 7).filter (· ≠ 0x20#8) ∧ m.displayText.length ≤ 7
      ∧ ∃ tens ones : Byte, p[9]? = some tens ∧ p[10]? = some ones
          ∧ m.progress.toNat = tens.toNat * 10 + ones.toNat ∧ m.progress.toNat ≤ 2805

/-- R145, R154: a display whose text is a marker, in a known mode, is decoded whatever the range code, with
`is_overload` set and no value, the unit and the flags still returned; and `is_overload` is set only then. -/
def Obligations.OverloadMakesNoValue : Prop :=
  (∀ (P : Profile) (p : ByteString), 14 ≤ p.length → (p.headD 0#8).toNat < P.modes.length →
      (∀ c ∈ (p.drop 2).take 7, c.toNat < 0x80) →
      ((p.drop 2).take 7).filter (· ≠ 0x20#8) ∈ P.overloadMarkers →
      ∃ m name r a b c, decodePayload P p = .ok m ∧ m.isOverload = true ∧ m.value = none
        ∧ P.modes[(p.headD 0#8).toNat]? = some name ∧ p[1]? = some r
        ∧ m.unit = normaliseUnit P (unitOf P name r)
        ∧ p[11]? = some a ∧ p[12]? = some b ∧ p[13]? = some c ∧ m.flags = statusFlags P.statusLayout a b c)
    ∧ ∀ (P : Profile) (p : ByteString) (m : Measurement), decodePayload P p = .ok m →
        (m.isOverload = true ↔ m.displayText ∈ P.overloadMarkers)

/-- R146: parse_decimal accepts exactly the texts of the grammar `[+|-] digit* [. digit*]` with at least one
digit, and returns their number. -/
def Obligations.ParseAcceptsTheGrammar : Prop :=
  ∀ (t : ByteString) (d : Decimal), parseDecimal t = some d ↔ IsDecimalText t d

/-- R147, R148, R149: the unit is looked up by the mode's name and the range code; without one the value is
unscaled and the unit absent; a unit whose first byte has an exponent e loses that byte, e is added to the value's
exponent, so the number is multiplied by exactly 10^e, and its digits and sign are unchanged; any other unit is kept
and the value unscaled. -/
def Obligations.UnitAndValueNormalised : Prop :=
  ∀ (P : Profile) (p : ByteString) (m : Measurement), decodePayload P p = .ok m →
    ∃ name r, P.modes[m.mode.toNat]? = some name ∧ p[1]? = some r ∧
      (unitOf P name r = none → m.unit = none ∧ (m.isOverload = false → m.value = parseDecimal m.displayText))
      ∧ (∀ c u e, unitOf P name r = some (c :: u) → exponentOf P c = some e →
          m.unit = some u ∧ (m.isOverload = false → ∃ v0 v, parseDecimal m.displayText = some v0
            ∧ m.value = some v ∧ v.neg = v0.neg ∧ v.mant = v0.mant ∧ v.exp = v0.exp + e
            ∧ v.toRat = v0.toRat * (10 : ℚ) ^ e))
      ∧ (∀ c u, unitOf P name r = some (c :: u) → exponentOf P c = none →
          m.unit = some (c :: u) ∧ (m.isOverload = false → m.value = parseDecimal m.displayText))

/-- R151, R152: under any layout each flag is its own bit and `is_auto_range` is the complement of its bit; under
the default layout of R82 (PRESUMED bit positions, log entry 15) they are the bits of bytes 11 to 13 that R151
lists. -/
def Obligations.StatusFlagsReadTheirBits : Prop :=
  ∀ (P : Profile) (p : ByteString) (m : Measurement), decodePayload P p = .ok m →
    ∃ a b c : Byte, p[11]? = some a ∧ p[12]? = some b ∧ p[13]? = some c
      ∧ m.flags = { isMax := statusBit P.statusLayout.isMax a b c, isMin := statusBit P.statusLayout.isMin a b c,
                    isHold := statusBit P.statusLayout.isHold a b c, isRel := statusBit P.statusLayout.isRel a b c,
                    isAutoRange := !statusBit P.statusLayout.isAutoRange a b c,
                    batteryWarning := statusBit P.statusLayout.batteryWarning a b c,
                    highVoltageWarning := statusBit P.statusLayout.highVoltageWarning a b c,
                    isDc := statusBit P.statusLayout.isDc a b c, peakMax := statusBit P.statusLayout.peakMax a b c,
                    peakMin := statusBit P.statusLayout.peakMin a b c,
                    barPolarity := statusBit P.statusLayout.barPolarity a b c }
      ∧ (P.statusLayout = defaultStatusLayout →
          m.flags = ⟨a.getLsbD 3, a.getLsbD 2, a.getLsbD 1, a.getLsbD 0, !b.getLsbD 2, b.getLsbD 1, b.getLsbD 0,
            c.getLsbD 3, c.getLsbD 2, c.getLsbD 1, c.getLsbD 0⟩)

/-- R155, R85: a text of at most seven bytes that parses is a sign, integer digits and fraction digits; its mantissa
is the number all those digits write and is below 10^7, its exponent is minus the count of its fraction digits, at
most 6, and its digits are at most 7; a returned mantissa is below 10^7; under the default exponent table of R87
(PRESUMED but for `m`, log entry 15) a returned exponent is in -15..+6. -/
def Obligations.NumericLaws : Prop :=
  (∀ (t : ByteString) (d : Decimal), t.length ≤ 7 → parseDecimal t = some d →
      ∃ (sign : Option Bool) (whole frac : ByteString) (point : Bool),
        t = signBytes sign ++ whole ++ (if point then 0x2E#8 :: frac else [])
          ∧ (point = false → frac = []) ∧ (∀ c ∈ whole ++ frac, isDigit c = true)
          ∧ d.neg = decide (sign = some true) ∧ d.mant.toNat = digitsValue (whole ++ frac)
          ∧ d.exp = -(frac.length : Int)
          ∧ d.mant.toNat < 10 ^ 7 ∧ frac.length ≤ 6 ∧ frac.length + whole.length ≤ 7)
    ∧ (∀ (P : Profile) (p : ByteString) (m : Measurement) (v : Decimal), decodePayload P p = .ok m →
        m.value = some v → v.mant.toNat < 10 ^ 7
          ∧ (P.exponentTable = defaultExponentTable → -15 ≤ v.exp ∧ v.exp ≤ 6))

/-- The optional fields of the record (R32, R86): the value is absent exactly on overload, the unit exactly when
the profile gives none; under a profile the spec admits, a returned unit has at most 8 bytes and is UTF-8 text, so
stripping the first byte has taken a whole character off it. What counts as UTF-8 text (`isUtf8`, in the premise and
in the conclusion) is PRESUMED from the UTF-8 standard, which the spec names but does not give (log entry 16). -/
def Obligations.OptionalFieldsOfTheRecord : Prop :=
  ∀ (P : Profile) (p : ByteString) (m : Measurement), decodePayload P p = .ok m →
    (m.value = none ↔ m.isOverload = true)
      ∧ (∃ name r, P.modes[m.mode.toNat]? = some name ∧ p[1]? = some r ∧ (m.unit = none ↔ unitOf P name r = none))
      ∧ (P.wf = true → ∀ u, m.unit = some u → u.length ≤ 8 ∧ isUtf8 u = true)

/-- R85: two values count as equal exactly when their numbers are equal, whatever their trailing zeros and the
sign of a zero. -/
def Obligations.ValueEqualityIsNumeric : Prop :=
  ∀ a b : Decimal, a.sameNumber b = true ↔ a.toRat = b.toRat

/-- The source's example (00_scope.md glossary "prefix normalization", 92 D24, 95 W4), for every profile that
meets what the source says of it, gives `m` the exponent -3 and does not call "5.54" a marker: ACmV, range '0',
display "5.54" decodes to 0.00554 and the unit "V". -/
def Obligations.SourceExampleMillivolts : Prop :=
  ∀ (P : Profile) (i : Byte) (rest : ByteString), MeetsSource P →
    modeName P i = some [0x41#8, 0x43#8, 0x6D#8, 0x56#8] → exponentOf P 0x6D#8 = some (-3) →
    [0x35#8, 0x2E#8, 0x35#8, 0x34#8] ∉ P.overloadMarkers → 5 ≤ rest.length →
    ∃ m v, decodePayload P
        ([i, 0x30#8, 0x20#8, 0x20#8, 0x20#8, 0x35#8, 0x2E#8, 0x35#8, 0x34#8] ++ rest) = .ok m
      ∧ m.value = some v ∧ v.toRat = 554 / 100000 ∧ m.unit = some [0x56#8] ∧ m.isOverload = false

/-- The default markers of R88 (PRESUMED but for three of them, log entry 15): each one, padded to seven display
bytes with spaces at the end, in a known mode, is decoded as an overload; "ol" is not. -/
def Obligations.DefaultMarkersAreOverload : Prop :=
  ∀ (P : Profile), P.overloadMarkers = defaultOverloadMarkers →
    (∀ mk ∈ defaultOverloadMarkers, ∀ (i r : Byte) (rest : ByteString), i.toNat < P.modes.length →
        5 ≤ rest.length →
        ∃ m, decodePayload P ([i, r] ++ mk ++ List.replicate (7 - mk.length) 0x20#8 ++ rest) = .ok m
          ∧ m.isOverload = true ∧ m.value = none)
      ∧ isOverloadText P [0x6F#8, 0x6C#8] = false

/-- R53, R147, R87: the profile's tables are read by key. In a profile the spec admits, an entry of UNITS or of
EXPONENT_TABLE is what a read of its key gives; in any profile a key with no entry gives none, MODES is read by
index, and the default exponents of R87 (PRESUMED but for `m`, log entry 15) are those of M, k, m, u and n, every
other byte having none. -/
def Obligations.ProfileTablesAreReadByKey : Prop :=
  (∀ P : Profile, P.wf = true →
      (∀ e ∈ P.units, unitOf P e.mode e.range = some e.unit)
      ∧ ∀ e ∈ P.exponentTable, exponentOf P e.byte = some e.exponent)
    ∧ (∀ (P : Profile) (name : ByteString) (r : Byte), (∀ e ∈ P.units, e.mode = name → e.range ≠ r) →
        unitOf P name r = none)
    ∧ (∀ (P : Profile) (b : Byte), (∀ e ∈ P.exponentTable, e.byte ≠ b) → exponentOf P b = none)
    ∧ (∀ (P : Profile) (i : Byte) (name : ByteString), modeName P i = some name ↔ P.modes[i.toNat]? = some name)
    ∧ ∀ (P : Profile) (b : Byte) (e : Int), P.exponentTable = defaultExponentTable →
        (exponentOf P b = some e ↔ (b = 0x4D#8 ∧ e = 6) ∨ (b = 0x6B#8 ∧ e = 3) ∨ (b = 0x6D#8 ∧ e = -3)
          ∨ (b = 0x75#8 ∧ e = -6) ∨ (b = 0x6E#8 ∧ e = -9))
end

