-- ==== Sys2Proof/Laws/State.lean ====
section
/-! SUPPORT. What the shared updates of State leave in each field: one lemma per field per update, true by
definition, so that no proof unfolds a record update. -/

namespace Sys2Proof.Machine

variable (s : State)

@[simp] theorem quiet_st : s.quiet.st = s.st := rfl
@[simp] theorem quiet_sum : s.quiet.sum = s.sum := rfl
@[simp] theorem quiet_n : s.quiet.n = s.n := rfl
@[simp] theorem quiet_cnt : s.quiet.cnt = s.cnt := rfl
@[simp] theorem quiet_buf : s.quiet.buf = s.buf := rfl
@[simp] theorem quiet_ports : s.quiet.ports = Ports.idle := rfl
@[simp] theorem quiet_profile : s.quiet.profile = s.profile := rfl
@[simp] theorem quiet_inputs : s.quiet.inputs = s.inputs := rfl
@[simp] theorem quiet_output : s.quiet.output = none := rfl
@[simp] theorem quiet_era : s.quiet.era = s.era := rfl

variable (e : Event) (ck : Half)

@[simp] theorem report_st : (s.report e ck).st = .seek1 := rfl
@[simp] theorem report_sum : (s.report e ck).sum = s.sum := rfl
@[simp] theorem report_n : (s.report e ck).n = s.n := rfl
@[simp] theorem report_cnt : (s.report e ck).cnt = s.cnt := rfl
@[simp] theorem report_buf : (s.report e ck).buf = s.buf := rfl
@[simp] theorem report_ports : (s.report e ck).ports = e.ports ck s.sum := rfl
@[simp] theorem report_profile : (s.report e ck).profile = s.profile := rfl
@[simp] theorem report_inputs : (s.report e ck).inputs = s.inputs := rfl
@[simp] theorem report_output : (s.report e ck).output = some (.event e) := rfl
@[simp] theorem report_era : (s.report e ck).era = s.era := rfl

variable (r : DecodeResult)

@[simp] theorem answer_st : (s.answer r).st = s.st := rfl
@[simp] theorem answer_sum : (s.answer r).sum = s.sum := rfl
@[simp] theorem answer_n : (s.answer r).n = s.n := rfl
@[simp] theorem answer_cnt : (s.answer r).cnt = s.cnt := rfl
@[simp] theorem answer_buf : (s.answer r).buf = s.buf := rfl
@[simp] theorem answer_ports : (s.answer r).ports = s.ports := rfl
@[simp] theorem answer_profile : (s.answer r).profile = s.profile := rfl
@[simp] theorem answer_inputs : (s.answer r).inputs = s.inputs := rfl
@[simp] theorem answer_output : (s.answer r).output = some (.decoded r) := rfl
@[simp] theorem answer_era : (s.answer r).era = s.era := rfl

/-- What a byte read sees: the buffer's cells and the era, nothing else of the state. -/
theorem bufRead_congr {s t : State} (hb : s.buf = t.buf) (he : s.era = t.era) (i : Nat) :
    s.bufRead i = t.bufRead i := by
  unfold State.bufRead
  rw [hb, he]

/-- What a step returned, read as an event. -/
@[simp] theorem event?_of_none {s : State} (h : s.output = none) : s.event? = none := by
  unfold State.event?; rw [h]

@[simp] theorem event?_of_event {s : State} {e : Event} (h : s.output = some (.event e)) :
    s.event? = some e := by
  unfold State.event?; rw [h]

@[simp] theorem event?_of_decoded {s : State} {r : DecodeResult} (h : s.output = some (.decoded r)) :
    s.event? = none := by
  unfold State.event?; rw [h]

end Sys2Proof.Machine
end

