-- ==== Sys2Proof/Laws/Memory.lean ====
section
/-! SUPPORT. The laws of the payload buffer: read after write, writes leave other indices alone, every write
keeps the canonical form, and equal buffers are equal data (spec/20_memory.md R51, R52). -/

namespace Sys2Proof.Machine

namespace Memory

@[simp] theorem read?_nil (i : Nat) : read? [] i = none := rfl

theorem read?_write_same (m : Memory) (i : Nat) (b : Byte) : (m.write i b).read? i = some b := by
  induction m with
  | nil => simp [write, read?]
  | cons c m ih =>
    obtain ⟨a, v⟩ := c
    unfold write
    split
    · simp [read?]
    · split
      · simp [read?]
      · have : a ≠ i := by omega
        simp [read?, this, ih]

theorem read?_write_other (m : Memory) {i j : Nat} (b : Byte) (h : j ≠ i) :
    (m.write i b).read? j = m.read? j := by
  induction m with
  | nil => simp [write, read?]; omega
  | cons c m ih =>
    obtain ⟨a, v⟩ := c
    unfold write
    split
    · have : i ≠ j := by omega
      simp [read?, this]
    · split
      · next h1 =>
        subst h1
        have : i ≠ j := by omega
        simp [read?, this]
      · simp [read?, ih]

/-- Every cell of a written buffer is the new one or an old one. -/
theorem mem_write {m : Memory} {i : Nat} {b : Byte} {c : Host.Cell} (h : c ∈ m.write i b) :
    c = (i, b) ∨ c ∈ m := by
  induction m with
  | nil => simpa [write] using h
  | cons d m ih =>
    obtain ⟨a, v⟩ := d
    unfold write at h
    split at h
    · simpa using h
    · split at h
      · rcases List.mem_cons.mp h with h | h
        · exact .inl h
        · exact .inr (List.mem_cons_of_mem _ h)
      · rcases List.mem_cons.mp h with h | h
        · exact .inr (by simp [h])
        · rcases ih h with h | h
          · exact .inl h
          · exact .inr (List.mem_cons_of_mem _ h)

theorem wf_cons {a : Nat} {v : Byte} {m : Memory} :
    wf ((a, v) :: m) = true ↔ a < Config.bufSize ∧ (∀ c ∈ m, a < c.1) ∧ wf m = true := by
  simp only [wf, Bool.and_eq_true, decide_eq_true_eq, List.all_eq_true, and_assoc]

/-- A write inside the buffer keeps the canonical form. -/
theorem write_wf {m : Memory} {i : Nat} {b : Byte} (hi : i < Config.bufSize) (h : wf m = true) :
    wf (m.write i b) = true := by
  induction m with
  | nil => simp [write, wf, hi]
  | cons d m ih =>
    obtain ⟨a, v⟩ := d
    obtain ⟨ha, hlt, hm⟩ := wf_cons.mp h
    unfold write
    split
    · next hia =>
      refine wf_cons.mpr ⟨hi, ?_, h⟩
      intro c hc
      rcases List.mem_cons.mp hc with rfl | hc
      · exact hia
      · exact Nat.lt_trans hia (hlt c hc)
    · split
      · next h1 => subst h1; exact wf_cons.mpr ⟨hi, hlt, hm⟩
      · next h2 h3 =>
        refine wf_cons.mpr ⟨ha, ?_, ih hm⟩
        intro c hc
        rcases mem_write hc with rfl | hc
        · show a < i
          omega
        · exact hlt c hc

/-- An index below every cell's is not listed. -/
theorem read?_eq_none_of_lt {m : Memory} {i : Nat} (h : ∀ c ∈ m, i < c.1) : m.read? i = none := by
  induction m with
  | nil => rfl
  | cons d m ih =>
    obtain ⟨a, v⟩ := d
    have ha : i < a := h (a, v) (by simp)
    have : a ≠ i := by omega
    simp only [read?, this, if_false]
    exact ih fun c hc => h c (List.mem_cons_of_mem _ hc)

/-- Equal buffers are equal data: two canonical buffers that list the same bytes are the same list. -/
theorem ext_of_wf {m k : Memory} (hm : wf m = true) (hk : wf k = true)
    (h : ∀ i, m.read? i = k.read? i) : m = k := by
  induction m generalizing k with
  | nil =>
    cases k with
    | nil => rfl
    | cons d k => simpa [read?] using h d.1
  | cons c m ih =>
    obtain ⟨a, v⟩ := c
    obtain ⟨_, hlt, hm'⟩ := wf_cons.mp hm
    cases k with
    | nil => simpa [read?] using h a
    | cons d k =>
      obtain ⟨a', v'⟩ := d
      obtain ⟨_, hlt', hk'⟩ := wf_cons.mp hk
      have hle : a = a' := by
        rcases Nat.lt_trichotomy a a' with hl | hl | hl
        · have h1 := h a
          have h2 : read? ((a', v') :: k) a = none := by
            refine read?_eq_none_of_lt fun c hc => ?_
            rcases List.mem_cons.mp hc with rfl | hc
            · exact hl
            · exact Nat.lt_trans hl (hlt' c hc)
          rw [h2] at h1
          simp [read?] at h1
        · exact hl
        · have h1 := h a'
          have h2 : read? ((a, v) :: m) a' = none := by
            refine read?_eq_none_of_lt fun c hc => ?_
            rcases List.mem_cons.mp hc with rfl | hc
            · exact hl
            · exact Nat.lt_trans hl (hlt c hc)
          rw [h2] at h1
          simp [read?] at h1
      subst hle
      have hv : v = v' := by simpa [read?] using h a
      subst hv
      congr 1
      refine ih hm' hk' fun i => ?_
      by_cases hi : a = i
      · subst hi
        rw [read?_eq_none_of_lt hlt, read?_eq_none_of_lt hlt']
      · simpa [read?, hi] using h i

end Memory

variable (b : Byte) (s : State)

@[simp] theorem pushed_st : (s.pushed b).st = s.st := rfl
@[simp] theorem pushed_sum : (s.pushed b).sum = s.sum := rfl
@[simp] theorem pushed_n : (s.pushed b).n = s.n := rfl
@[simp] theorem pushed_cnt : (s.pushed b).cnt = s.cnt + 1#8 := rfl
@[simp] theorem pushed_buf : (s.pushed b).buf = s.buf.write s.cnt.toNat b := rfl
@[simp] theorem pushed_ports : (s.pushed b).ports = s.ports := rfl
@[simp] theorem pushed_profile : (s.pushed b).profile = s.profile := rfl
@[simp] theorem pushed_inputs : (s.pushed b).inputs = s.inputs := rfl
@[simp] theorem pushed_output : (s.pushed b).output = s.output := rfl
@[simp] theorem pushed_era : (s.pushed b).era = s.era := rfl

/-- `pushByte` answers exactly when the index exists. -/
theorem pushByte_of_lt {s : State} (b : Byte) (h : s.cnt.toNat < 255) : s.pushByte b = some (s.pushed b) :=
  if_pos h

theorem pushByte_of_ge {s : State} (b : Byte) (h : ¬ s.cnt.toNat < 255) : s.pushByte b = none :=
  if_neg h

theorem pushByte_eq_some {s s1 : State} {b : Byte} (h : s.pushByte b = some s1) :
    s.cnt.toNat < 255 ∧ s1 = s.pushed b := by
  by_cases hc : s.cnt.toNat < 255
  · rw [pushByte_of_lt b hc] at h
    exact ⟨hc, (Option.some.inj h).symm⟩
  · rw [pushByte_of_ge b hc] at h
    cases h

/-- The counter after a push below the last index. -/
theorem pushed_cnt_toNat {s : State} (b : Byte) (h : s.cnt.toNat < 255) :
    (s.pushed b).cnt.toNat = s.cnt.toNat + 1 := by
  simp only [pushed_cnt, BitVec.toNat_add, BitVec.toNat_ofNat]
  omega

/-- Reading the index just written gives the byte. -/
theorem bufRead_write_same {s t : State} {i : Nat} {b : Byte} (h : t.buf = s.buf.write i b) :
    t.bufRead i = b := by
  unfold State.bufRead
  rw [h, Memory.read?_write_same]

/-- Reading any other index gives what it gave before. -/
theorem bufRead_write_other {s t : State} {i j : Nat} {b : Byte} (h : t.buf = s.buf.write i b)
    (he : t.era = s.era) (hj : j ≠ i) : t.bufRead j = s.bufRead j := by
  unfold State.bufRead
  rw [h, he, Memory.read?_write_other _ _ hj]

/-- A prefix of the buffer is unchanged by a write at or above its end. -/
theorem bufBytes_write {s t : State} {i k : Nat} {b : Byte} (h : t.buf = s.buf.write i b)
    (he : t.era = s.era) (hk : k ≤ i) : t.bufBytes k = s.bufBytes k := by
  unfold State.bufBytes
  refine List.map_congr_left fun j hj => ?_
  have := List.mem_range.mp hj
  exact bufRead_write_other h he (by omega)

/-- Writing at the end of a prefix appends the byte. -/
theorem bufBytes_write_succ {s t : State} {i : Nat} {b : Byte} (h : t.buf = s.buf.write i b)
    (he : t.era = s.era) : t.bufBytes (i + 1) = s.bufBytes i ++ [b] := by
  have h1 := bufBytes_write (k := i) h he (Nat.le_refl i)
  unfold State.bufBytes at *
  rw [List.range_succ, List.map_append, h1]
  simp [bufRead_write_same h]

/-- The first bytes of a longer read of the buffer. -/
theorem bufBytes_take {s : State} {j k : Nat} (h : j ≤ k) : (s.bufBytes k).take j = s.bufBytes j := by
  rw [State.bufBytes, ← List.map_take, List.take_range, Nat.min_eq_left h]
  rfl

/-- Reading inside an equal prefix. -/
theorem bufBytes_congr {s t : State} {k : Nat} (h : ∀ i, i < k → s.bufRead i = t.bufRead i) :
    s.bufBytes k = t.bufBytes k := by
  unfold State.bufBytes
  exact List.map_congr_left fun i hi => h i (List.mem_range.mp hi)

end Sys2Proof.Machine
end

