-- ==== Sys2Proof/Laws/Select.lean ====
section
/-! SUPPORT. What the decoder answers, state by state: the table search of `selectRow` computed once
(spec/30_encoding.md R74 to R76), so that no later proof unfolds the table. -/

namespace Sys2Proof

/-! ## The operation word -/

theorem getLsbD_word (a : BitVec 2) (b : Byte) (i : Nat) :
    (a ++ b : BitVec 10).getLsbD i = if i < 8 then b.getLsbD i else a.getLsbD (i - 8) :=
  BitVec.getLsbD_append

/-- A match under a mask, split into its state bits and its byte bits. -/
theorem masked_word_eq (a m p : BitVec 2) (b k q : Byte) :
    ((a ++ b : BitVec 10) &&& (m ++ k : BitVec 10) = (p ++ q : BitVec 10)) ↔ (a &&& m = p ∧ b &&& k = q) := by
  constructor
  · intro h
    constructor
    · ext i hi
      have hw := congrArg (fun w : BitVec 10 => w.getLsbD (8 + i)) h
      have h8 : ¬ 8 + i < 8 := by omega
      simpa [getLsbD_word, h8, ← BitVec.getLsbD_eq_getElem] using hw
    · ext i hi
      have hw := congrArg (fun w : BitVec 10 => w.getLsbD i) h
      simpa [getLsbD_word, hi, ← BitVec.getLsbD_eq_getElem] using hw
  · rintro ⟨rfl, rfl⟩
    apply BitVec.eq_of_getLsbD_eq
    intro i _
    simp only [BitVec.getLsbD_and, getLsbD_word]
    split <;> simp

@[simp] theorem wordByte_opWord (st : St) (b : Byte) : wordByte (opWord st b) = b := by
  unfold wordByte opWord
  ext i hi
  simp [getLsbD_word, hi, ← BitVec.getLsbD_eq_getElem]

@[simp] theorem wordState_opWord (st : St) (b : Byte) : wordState (opWord st b) = st := by
  have h : (opWord st b).extractLsb' 8 2 = st.code := by
    unfold opWord
    ext i hi
    simp [getLsbD_word, hi, ← BitVec.getLsbD_eq_getElem]
  unfold wordState
  rw [h]
  cases st <;> rfl

theorem code_ofCode (c : BitVec 2) : (St.ofCode c).code = c := by
  revert c; decide

/-- Every word is the word of its state and its byte (R74). -/
theorem opWord_of_word (w : BitVec 10) : opWord (wordState w) (wordByte w) = w := by
  apply BitVec.eq_of_getLsbD_eq
  intro i hi
  unfold opWord wordState wordByte
  rw [code_ofCode, getLsbD_word]
  split
  · next h => simp [h]
  · next h =>
    have h1 : i - 8 < 2 := by omega
    have h2 : 8 + (i - 8) = i := by omega
    simp [h1, h2]

/-! ## The rows -/

/-- A word is its two high bits before its low byte. -/
theorem word_cut (w : BitVec 10) : w = (w.extractLsb' 8 2 ++ w.extractLsb' 0 8 : BitVec 10) := by
  have h := opWord_of_word w
  unfold opWord wordState wordByte at h
  rw [code_ofCode] at h
  exact h.symm

/-- A row hits exactly when its state bits, its byte bits and its extra condition hold. -/
theorem hits_opWord (P M : BitVec 10) (x : RowCtx → Byte → Bool) (f : Byte → Instr) (c : RowCtx) (st : St)
    (b : Byte) :
    OpRow.hits ⟨P, M, x, f⟩ c (opWord st b)
      = (decide (st.code &&& M.extractLsb' 8 2 = P.extractLsb' 8 2)
          && decide (b &&& M.extractLsb' 0 8 = P.extractLsb' 0 8) && x c b) := by
  unfold OpRow.hits
  rw [wordByte_opWord]
  have h := masked_word_eq st.code (M.extractLsb' 8 2) (P.extractLsb' 8 2) b (M.extractLsb' 0 8)
    (P.extractLsb' 0 8)
  rw [← word_cut M, ← word_cut P] at h
  unfold opWord
  rw [decide_eq_decide.mpr h, Bool.decide_and]

theorem byte_and_ff (b : Byte) : b &&& 0xFF#8 = b := BitVec.and_allOnes

set_option maxRecDepth 4000 in
theorem byte_and_fe : ∀ b : Byte, b &&& 0xFE#8 = 0x00#8 ↔ b.toNat < Config.nMin := by decide

theorem decode_seek1 (c : RowCtx) (b : Byte) :
    decode c (.sync10 (opWord .seek1 b)) = .ok (if b = Config.hdr1 then .seek1Hdr1 else .seek1Skip b) := by
  unfold decode selectRow
  by_cases h : b = Config.hdr1
  · have h' : b = 0xAB#8 := h
    simp [opTable, hits_opWord, St.code, h']; rfl
  · have h' : ¬ b = 0xAB#8 := h
    simp [opTable, List.find?, hits_opWord, St.code, h, h', byte_and_ff]
    simp only [bne_iff_ne.mpr h]

theorem decode_seek2 (c : RowCtx) (b : Byte) :
    decode c (.sync10 (opWord .seek2 b)) = .ok (if b = Config.hdr2 then .seek2Hdr2 else .seek2Miss b) := by
  unfold decode selectRow
  by_cases h : b = Config.hdr2
  · have h' : b = 0xCD#8 := h
    simp [opTable, hits_opWord, St.code, h']; rfl
  · have h' : ¬ b = 0xCD#8 := h
    simp [opTable, List.find?, hits_opWord, St.code, h, h', byte_and_ff]
    simp only [bne_iff_ne.mpr h]

theorem decode_len (c : RowCtx) (b : Byte) :
    decode c (.sync10 (opWord .len b)) = .ok (if b.toNat < Config.nMin then .lenBad b else .lenOk b) := by
  unfold decode selectRow
  by_cases h : b.toNat < Config.nMin
  · simp [opTable, List.find?, hits_opWord, St.code, h, (byte_and_fe b).mpr h]
  · have h' : ¬ b &&& 0xFE#8 = 0x00#8 := fun hb => h ((byte_and_fe b).mp hb)
    have h2 : Config.nMin ≤ b.toNat := by omega
    simp [opTable, List.find?, hits_opWord, St.code, h, h', h2]

theorem decode_payload (c : RowCtx) (b : Byte) :
    decode c (.sync10 (opWord .payload b))
      = if c.atData then .ok (.payloadData b)
        else if c.atCkHi then .ok (.payloadCkhi b)
        else if c.atCkLo then
          .ok (if c.sumMatches b then .payloadCkloOk b else .payloadCkloBad b)
        else .error .noRow := by
  unfold decode selectRow
  cases h1 : c.atData <;> cases h2 : c.atCkHi <;> cases h3 : c.atCkLo <;> cases h4 : c.sumMatches b <;>
    simp [opTable, List.find?, hits_opWord, St.code, h1, h2, h3, h4]

/-! ## The three places of a PAYLOAD step -/

theorem atData_iff (c : RowCtx) : c.atData = true ↔ c.cnt.toNat + 2 < c.n.toNat := by
  simp [RowCtx.atData]

theorem atCkHi_iff (c : RowCtx) : c.atCkHi = true ↔ c.cnt.toNat + 2 = c.n.toNat := by
  simp [RowCtx.atCkHi]

theorem atCkLo_iff (c : RowCtx) : c.atCkLo = true ↔ c.cnt.toNat + 1 = c.n.toNat := by
  simp [RowCtx.atCkLo]

theorem sumMatches_iff (c : RowCtx) (b : Byte) : c.sumMatches b = true ↔ c.sum = be16 c.ckHi b := by
  simp [RowCtx.sumMatches]

theorem decode_data {c : RowCtx} (b : Byte) (h : c.cnt.toNat + 2 < c.n.toNat) :
    decode c (.sync10 (opWord .payload b)) = .ok (.payloadData b) := by
  rw [decode_payload, if_pos ((atData_iff c).mpr h)]

theorem decode_ckHi {c : RowCtx} (b : Byte) (h : c.cnt.toNat + 2 = c.n.toNat) :
    decode c (.sync10 (opWord .payload b)) = .ok (.payloadCkhi b) := by
  have h1 : ¬ c.atData = true := by rw [atData_iff]; omega
  rw [decode_payload, if_neg h1, if_pos ((atCkHi_iff c).mpr h)]

theorem decode_ckLo {c : RowCtx} (b : Byte) (h : c.cnt.toNat + 1 = c.n.toNat) :
    decode c (.sync10 (opWord .payload b))
      = .ok (if c.sum = be16 c.ckHi b then .payloadCkloOk b else .payloadCkloBad b) := by
  have h1 : ¬ c.atData = true := by rw [atData_iff]; omega
  have h2 : ¬ c.atCkHi = true := by rw [atCkHi_iff]; omega
  rw [decode_payload, if_neg h1, if_neg h2, if_pos ((atCkLo_iff c).mpr h)]
  by_cases hs : c.sum = be16 c.ckHi b
  · rw [if_pos ((sumMatches_iff c b).mpr hs), if_pos hs]
  · rw [if_neg (fun hm => hs ((sumMatches_iff c b).mp hm)), if_neg hs]

theorem decode_noRow {c : RowCtx} (b : Byte) (h : c.n.toNat ≤ c.cnt.toNat) :
    decode c (.sync10 (opWord .payload b)) = .error .noRow := by
  have h1 : ¬ c.atData = true := by rw [atData_iff]; omega
  have h2 : ¬ c.atCkHi = true := by rw [atCkHi_iff]; omega
  have h3 : ¬ c.atCkLo = true := by rw [atCkLo_iff]; omega
  rw [decode_payload, if_neg h1, if_neg h2, if_neg h3]

end Sys2Proof
end

