-- ==== Sys2Proof/Laws/Meanings.lean ====
section
/-! SUPPORT. What each shared operation and each byte step answers, once: every later proof cites these and
unfolds no meaning (spec/40_frame_sync.md R101 to R111). -/

namespace Sys2Proof.Machine

/-! ## Arithmetic of the registers -/

/-- The sum is modulo 2^16 (10_state.md R22). -/
theorem addSum_eq (sum : Half) (b : Byte) : addSum sum b = BitVec.ofNat 16 (sum.toNat + b.toNat) := by
  apply BitVec.eq_of_toNat_eq
  have := b.isLt
  simp [addSum, BitVec.toNat_add, Nat.mod_eq_of_lt (show b.toNat < 65536 by omega)]

theorem addSum_toNat (sum : Half) (b : Byte) : (addSum sum b).toNat = (sum.toNat + b.toNat) % 2 ^ 16 := by
  rw [addSum_eq, BitVec.toNat_ofNat]

/-- A big-endian pair is `hi * 256 + lo` (00_scope.md R8). -/
theorem be16_toNat (hi lo : Byte) : (be16 hi lo).toNat = hi.toNat * 256 + lo.toNat := by
  have h2 := lo.isLt
  unfold be16
  rw [BitVec.toNat_append, ← Nat.shiftLeft_add_eq_or_of_lt h2, Nat.shiftLeft_eq]

theorem be16_eq (hi lo : Byte) : be16 hi lo = BitVec.ofNat 16 (hi.toNat * 256 + lo.toNat) := by
  apply BitVec.eq_of_toNat_eq
  have h1 := hi.isLt
  have h2 := lo.isLt
  rw [be16_toNat, BitVec.toNat_ofNat]
  omega

theorem eq_be16_iff (s : Half) (hi lo : Byte) : s = be16 hi lo ↔ s.toNat = hi.toNat * 256 + lo.toNat := by
  rw [← be16_toNat]
  exact ⟨fun h => h ▸ rfl, BitVec.eq_of_toNat_eq⟩

/-- The counter's increment, as the last byte of a frame sees it. -/
theorem cnt_succ (c : Byte) : c + 1#8 = BitVec.ofNat 8 (c.toNat + 1) := by
  apply BitVec.eq_of_toNat_eq
  simp [BitVec.toNat_add]

theorem cnt_succ_eq {c n : Byte} (h : c.toNat + 1 = n.toNat) : c + 1#8 = n := by
  apply BitVec.eq_of_toNat_eq
  have := n.isLt
  simp only [BitVec.toNat_add, BitVec.toNat_ofNat]
  omega

theorem len_sub_two {n : Byte} (h : 2 ≤ n.toNat) : n - 2#8 = BitVec.ofNat 8 (n.toNat - 2) := by
  apply BitVec.eq_of_toNat_eq
  have := n.isLt
  simp only [BitVec.toNat_sub, BitVec.toNat_ofNat]
  omega

/-! ## The meanings -/

/-- The expected checksum, when `n - 2` exists. -/
theorem expectedSum_of_le {s : State} (b : Byte) (h : 2 ≤ s.n.toNat) :
    s.expectedSum b = some (be16 (s.bufRead (s.n.toNat - 2)) b) := if_pos h

theorem expectedSum_of_lt {s : State} (b : Byte) (h : ¬ 2 ≤ s.n.toNat) : s.expectedSum b = none := if_neg h

/-- What PAYLOAD.DATA does when it answers. -/
theorem execPayloadData_next {b : Byte} {s t : State} (h : execPayloadData b s = .next t) :
    s.cnt.toNat < 255 ∧ t = { (s.pushed b).quiet with sum := addSum s.sum b } := by
  unfold execPayloadData at h
  split at h
  · next s1 hp =>
    obtain ⟨hc, rfl⟩ := pushByte_eq_some hp
    exact ⟨hc, (Host.Outcome.next.inj h).symm⟩
  · cases h

/-- What PAYLOAD.CKHI does when it answers. -/
theorem execPayloadCkhi_next {b : Byte} {s t : State} (h : execPayloadCkhi b s = .next t) :
    s.cnt.toNat < 255 ∧ t = (s.pushed b).quiet := by
  unfold execPayloadCkhi at h
  split at h
  · next s1 hp =>
    obtain ⟨hc, rfl⟩ := pushByte_eq_some hp
    exact ⟨hc, (Host.Outcome.next.inj h).symm⟩
  · cases h

/-- What PAYLOAD.CKLO_OK does when it answers. -/
theorem execPayloadCkloOk_next {b : Byte} {s t : State} (h : execPayloadCkloOk b s = .next t) :
    s.cnt.toNat < 255 ∧ 2 ≤ s.n.toNat ∧
      t = (s.pushed b).report (.frame (s.pushed b).framePayload (s.n - 2#8))
        (be16 ((s.pushed b).bufRead (s.n.toNat - 2)) b) := by
  unfold execPayloadCkloOk at h
  split at h
  · next s1 hp =>
    obtain ⟨hc, rfl⟩ := pushByte_eq_some hp
    by_cases hn : 2 ≤ s.n.toNat
    · rw [expectedSum_of_le (s := s.pushed b) b hn] at h
      exact ⟨hc, hn, (Host.Outcome.next.inj h).symm⟩
    · rw [expectedSum_of_lt (s := s.pushed b) b hn] at h
      cases h
  · cases h

/-- What PAYLOAD.CKLO_BAD does when it answers. -/
theorem execPayloadCkloBad_next {b : Byte} {s t : State} (h : execPayloadCkloBad b s = .next t) :
    s.cnt.toNat < 255 ∧ 2 ≤ s.n.toNat ∧
      t = (s.pushed b).report (.checksumError (be16 ((s.pushed b).bufRead (s.n.toNat - 2)) b) s.sum)
        (be16 ((s.pushed b).bufRead (s.n.toNat - 2)) b) := by
  unfold execPayloadCkloBad at h
  split at h
  · next s1 hp =>
    obtain ⟨hc, rfl⟩ := pushByte_eq_some hp
    by_cases hn : 2 ≤ s.n.toNat
    · rw [expectedSum_of_le (s := s.pushed b) b hn] at h
      exact ⟨hc, hn, (Host.Outcome.next.inj h).symm⟩
    · rw [expectedSum_of_lt (s := s.pushed b) b hn] at h
      cases h
  · cases h

/-- What DECODE does when it answers. -/
theorem execDecode_next {p : ByteString} {s t : State} (h : execDecode p s = .next t) :
    ∃ P, s.profile = some P ∧ t = s.answer (decodePayload P p) := by
  unfold execDecode at h
  split at h
  · next P hP => exact ⟨P, hP, (Host.Outcome.next.inj h).symm⟩
  · cases h

/-! ## One input, state by state -/

/-- An input whose code the decoder reads is performed by `exec`. -/
theorem stepInput_of_decode {i : Input} {s : State} {instr : Instr}
    (h : decode s.rowCtx (i.code s.st) = .ok instr) : stepInput i s = exec instr s := by
  unfold stepInput
  rw [h]

@[simp] theorem stepInput_clear (s : State) : stepInput .clear s = execClear s := rfl
@[simp] theorem stepInput_reset (s : State) : stepInput .reset s = execReset s := rfl
@[simp] theorem stepInput_decode (p : ByteString) (s : State) :
    stepInput (.decode p) s = execDecode p s := rfl

/-- A byte in SEEK1 (R101, R102). -/
theorem stepInput_seek1 {s : State} (h : s.st = .seek1) (b : Byte) :
    stepInput (.byte b) s
      = .next (if b = Config.hdr1 then { s.quiet with st := .seek2, sum := 0x00AB#16 } else s.quiet) := by
  have hd := decode_seek1 s.rowCtx b
  rw [stepInput_of_decode (instr := if b = Config.hdr1 then .seek1Hdr1 else .seek1Skip b)
    (by rw [h]; exact hd)]
  split <;> rfl

/-- A byte in SEEK2 (R103, R104). -/
theorem stepInput_seek2 {s : State} (h : s.st = .seek2) (b : Byte) :
    stepInput (.byte b) s
      = .next (if b = Config.hdr2 then { s.quiet with st := .len, sum := addSum s.sum 0xCD#8 }
          else { s.quiet with st := .seek1 }) := by
  have hd := decode_seek2 s.rowCtx b
  rw [stepInput_of_decode (instr := if b = Config.hdr2 then .seek2Hdr2 else .seek2Miss b)
    (by rw [h]; exact hd)]
  split <;> rfl

/-- A byte in LEN (R105, R106). -/
theorem stepInput_len {s : State} (h : s.st = .len) (b : Byte) :
    stepInput (.byte b) s
      = .next (if b.toNat < 2 then s.report (.lengthError b) 0#16
          else { s.quiet with n := b, cnt := 0#8, sum := addSum s.sum b, st := .payload }) := by
  have hd := decode_len s.rowCtx b
  rw [stepInput_of_decode (instr := if b.toNat < 2 then .lenBad b else .lenOk b)
    (by rw [h]; exact hd)]
  split <;> rfl

theorem stepInput_hdr1 {s : State} (h : s.st = .seek1) :
    stepInput (.byte 0xAB#8) s = .next { s.quiet with st := .seek2, sum := 0x00AB#16 } := by
  rw [stepInput_seek1 h, if_pos (show 0xAB#8 = Config.hdr1 from rfl)]

theorem stepInput_skip {s : State} (h : s.st = .seek1) {b : Byte} (hb : b ≠ 0xAB#8) :
    stepInput (.byte b) s = .next s.quiet := by
  rw [stepInput_seek1 h, if_neg (show ¬ b = Config.hdr1 from hb)]

theorem stepInput_hdr2 {s : State} (h : s.st = .seek2) :
    stepInput (.byte 0xCD#8) s = .next { s.quiet with st := .len, sum := addSum s.sum 0xCD#8 } := by
  rw [stepInput_seek2 h, if_pos (show 0xCD#8 = Config.hdr2 from rfl)]

theorem stepInput_miss {s : State} (h : s.st = .seek2) {b : Byte} (hb : b ≠ 0xCD#8) :
    stepInput (.byte b) s = .next { s.quiet with st := .seek1 } := by
  rw [stepInput_seek2 h, if_neg (show ¬ b = Config.hdr2 from hb)]

theorem stepInput_lenOk {s : State} (h : s.st = .len) {b : Byte} (hb : 2 ≤ b.toNat) :
    stepInput (.byte b) s
      = .next { s.quiet with n := b, cnt := 0#8, sum := addSum s.sum b, st := .payload } := by
  rw [stepInput_len h, if_neg (by omega)]

theorem stepInput_lenBad {s : State} (h : s.st = .len) {b : Byte} (hb : b.toNat < 2) :
    stepInput (.byte b) s = .next (s.report (.lengthError b) 0#16) := by
  rw [stepInput_len h, if_pos hb]

/-- A payload byte (R107). -/
theorem stepInput_data {s : State} (h : s.st = .payload) (hc : s.cnt.toNat + 2 < s.n.toNat) (b : Byte) :
    stepInput (.byte b) s = .next { (s.pushed b).quiet with sum := addSum s.sum b } := by
  have hn := s.n.isLt
  rw [stepInput_of_decode (instr := .payloadData b) (by rw [h]; exact decode_data b hc)]
  show execPayloadData b s = _
  unfold execPayloadData
  rw [pushByte_of_lt b (by omega)]

/-- The checksum's high byte (R108). -/
theorem stepInput_ckHi {s : State} (h : s.st = .payload) (hc : s.cnt.toNat + 2 = s.n.toNat) (b : Byte) :
    stepInput (.byte b) s = .next (s.pushed b).quiet := by
  have hn := s.n.isLt
  rw [stepInput_of_decode (instr := .payloadCkhi b) (by rw [h]; exact decode_ckHi b hc)]
  show execPayloadCkhi b s = _
  unfold execPayloadCkhi
  rw [pushByte_of_lt b (by omega)]

/-- PAYLOAD.CKLO_OK and PAYLOAD.CKLO_BAD on a frame's last byte, reads taken before the write: the byte
written is above every index they read. -/
theorem execPayloadCklo {s : State} (hn : 2 ≤ s.n.toNat) (hc : s.cnt.toNat + 1 = s.n.toNat) (b : Byte) :
    execPayloadCkloOk b s
        = .next ((s.pushed b).report (.frame (s.bufBytes (s.n.toNat - 2)) (s.n - 2#8))
            (be16 (s.bufRead (s.n.toNat - 2)) b))
      ∧ execPayloadCkloBad b s
        = .next ((s.pushed b).report (.checksumError (be16 (s.bufRead (s.n.toNat - 2)) b) s.sum)
            (be16 (s.bufRead (s.n.toNat - 2)) b)) := by
  have hlt := s.n.isLt
  have hr : (s.pushed b).bufRead (s.n.toNat - 2) = s.bufRead (s.n.toNat - 2) :=
    bufRead_write_other (pushed_buf b s) rfl (by omega)
  have hb : (s.pushed b).framePayload = s.bufBytes (s.n.toNat - 2) :=
    bufBytes_write (pushed_buf b s) rfl (by show s.n.toNat - 2 ≤ _; omega)
  constructor
  · unfold execPayloadCkloOk
    rw [pushByte_of_lt b (by omega)]
    simp only [expectedSum_of_le (s := s.pushed b) b hn, pushed_n, hr, hb]
  · unfold execPayloadCkloBad
    rw [pushByte_of_lt b (by omega)]
    simp only [expectedSum_of_le (s := s.pushed b) b hn, pushed_n, pushed_sum, hr]

/-- The frame's last byte (R109, R110): FRAME when the sums agree, else CHECKSUM_ERROR. -/
theorem stepInput_ckLo {s : State} (h : s.st = .payload) (hn : 2 ≤ s.n.toNat)
    (hc : s.cnt.toNat + 1 = s.n.toNat) (b : Byte) :
    stepInput (.byte b) s
      = .next ((s.pushed b).report
          (if s.sum = be16 (s.bufRead (s.n.toNat - 2)) b then .frame (s.bufBytes (s.n.toNat - 2)) (s.n - 2#8)
            else .checksumError (be16 (s.bufRead (s.n.toNat - 2)) b) s.sum)
          (be16 (s.bufRead (s.n.toNat - 2)) b)) := by
  rw [stepInput_of_decode (instr := if s.sum = be16 (s.bufRead (s.n.toNat - 2)) b then .payloadCkloOk b
    else .payloadCkloBad b) (by rw [h]; exact decode_ckLo b hc)]
  split
  · exact (execPayloadCklo hn hc b).1
  · exact (execPayloadCklo hn hc b).2

/-- A PAYLOAD state outside R26(a) with no row: the step stops. -/
theorem stepInput_noRow {s : State} (h : s.st = .payload) (hc : s.n.toNat ≤ s.cnt.toNat) (b : Byte) :
    stepInput (.byte b) s = .fault .noOperation := by
  have hd : decode s.rowCtx ((Input.byte b).code s.st) = .error .noRow := by rw [h]; exact decode_noRow b hc
  unfold stepInput
  rw [hd]

/-- A PAYLOAD state outside R26(a) whose `n` is below 2: the checksum has no index and the step stops. -/
theorem stepInput_shortN {s : State} (h : s.st = .payload) (hn : s.n.toNat < 2)
    (hc : s.cnt.toNat + 1 = s.n.toNat) (b : Byte) : stepInput (.byte b) s = .fault .bufferIndex := by
  have hlt := s.n.isLt
  rw [stepInput_of_decode (instr := if s.sum = be16 (s.bufRead (s.n.toNat - 2)) b then .payloadCkloOk b
    else .payloadCkloBad b) (by rw [h]; exact decode_ckLo b hc)]
  split
  · show execPayloadCkloOk b s = _
    unfold execPayloadCkloOk
    rw [pushByte_of_lt b (by omega)]
    simp only [expectedSum_of_lt (s := s.pushed b) b (show ¬ 2 ≤ s.n.toNat by omega)]
  · show execPayloadCkloBad b s = _
    unfold execPayloadCkloBad
    rw [pushByte_of_lt b (by omega)]
    simp only [expectedSum_of_lt (s := s.pushed b) b (show ¬ 2 ≤ s.n.toNat by omega)]

/-- Everything a byte step can do: the seven shapes of a step that answers (R101 to R110). -/
theorem stepInput_byte_inv {s t : State} {b : Byte} (h : stepInput (.byte b) s = .next t) :
    (s.st = .seek1 ∧ b = 0xAB#8 ∧ t = { s.quiet with st := .seek2, sum := 0x00AB#16 })
      ∨ (s.st = .seek1 ∧ b ≠ 0xAB#8 ∧ t = s.quiet)
      ∨ (s.st = .seek2 ∧ b = 0xCD#8 ∧ t = { s.quiet with st := .len, sum := addSum s.sum 0xCD#8 })
      ∨ (s.st = .seek2 ∧ b ≠ 0xCD#8 ∧ t = { s.quiet with st := .seek1 })
      ∨ (s.st = .len ∧ b.toNat < 2 ∧ t = s.report (.lengthError b) 0#16)
      ∨ (s.st = .len ∧ 2 ≤ b.toNat
          ∧ t = { s.quiet with n := b, cnt := 0#8, sum := addSum s.sum b, st := .payload })
      ∨ (s.st = .payload ∧ s.cnt.toNat + 2 < s.n.toNat ∧ t = { (s.pushed b).quiet with sum := addSum s.sum b })
      ∨ (s.st = .payload ∧ s.cnt.toNat + 2 = s.n.toNat ∧ t = (s.pushed b).quiet)
      ∨ (s.st = .payload ∧ 2 ≤ s.n.toNat ∧ s.cnt.toNat + 1 = s.n.toNat
          ∧ t = (s.pushed b).report
              (if s.sum = be16 (s.bufRead (s.n.toNat - 2)) b then
                .frame (s.bufBytes (s.n.toNat - 2)) (s.n - 2#8)
              else .checksumError (be16 (s.bufRead (s.n.toNat - 2)) b) s.sum)
              (be16 (s.bufRead (s.n.toNat - 2)) b)) := by
  cases hst : s.st with
  | seek1 =>
    by_cases hb : b = 0xAB#8
    · subst hb
      rw [stepInput_hdr1 hst] at h
      exact .inl ⟨rfl, rfl, (Host.Outcome.next.inj h).symm⟩
    · rw [stepInput_skip hst hb] at h
      exact .inr (.inl ⟨rfl, hb, (Host.Outcome.next.inj h).symm⟩)
  | seek2 =>
    by_cases hb : b = 0xCD#8
    · subst hb
      rw [stepInput_hdr2 hst] at h
      exact .inr (.inr (.inl ⟨rfl, rfl, (Host.Outcome.next.inj h).symm⟩))
    · rw [stepInput_miss hst hb] at h
      exact .inr (.inr (.inr (.inl ⟨rfl, hb, (Host.Outcome.next.inj h).symm⟩)))
  | len =>
    by_cases hb : b.toNat < 2
    · rw [stepInput_lenBad hst hb] at h
      exact .inr (.inr (.inr (.inr (.inl ⟨rfl, hb, (Host.Outcome.next.inj h).symm⟩))))
    · rw [stepInput_lenOk hst (by omega)] at h
      exact .inr (.inr (.inr (.inr (.inr (.inl ⟨rfl, by omega, (Host.Outcome.next.inj h).symm⟩)))))
  | payload =>
    rcases Nat.lt_trichotomy (s.cnt.toNat + 2) s.n.toNat with hc | hc | hc
    · rw [stepInput_data hst hc] at h
      exact .inr (.inr (.inr (.inr (.inr (.inr (.inl ⟨rfl, hc, (Host.Outcome.next.inj h).symm⟩))))))
    · rw [stepInput_ckHi hst hc] at h
      exact .inr (.inr (.inr (.inr (.inr (.inr (.inr (.inl ⟨rfl, hc, (Host.Outcome.next.inj h).symm⟩)))))))
    · by_cases hc1 : s.cnt.toNat + 1 = s.n.toNat
      · by_cases hn : 2 ≤ s.n.toNat
        · rw [stepInput_ckLo hst hn hc1] at h
          exact .inr (.inr (.inr (.inr (.inr (.inr (.inr (.inr
            ⟨rfl, hn, hc1, (Host.Outcome.next.inj h).symm⟩)))))))
        · rw [stepInput_shortN hst (by omega) hc1] at h
          cases h
      · rw [stepInput_noRow hst (by omega)] at h
        cases h

end Sys2Proof.Machine
end

