-- ==== Sys2Proof/Laws/Stream.lean ====
section
/-! SUPPORT. The fold of a step over a stream (spec/40_frame_sync.md R100): one lemma per shape of the
stream, so that no later proof unfolds `run`. -/

namespace Sys2Proof.Machine

@[simp] theorem run_nil (s : State) : run [] s = .next (s, []) := rfl

@[simp] theorem feed_nil : feed [] = [] := rfl
@[simp] theorem feed_cons (b : Byte) (bs : ByteString) : feed (b :: bs) = .byte b :: feed bs := rfl
theorem feed_append (as bs : ByteString) : feed (as ++ bs) = feed as ++ feed bs := List.map_append

/-- One input that gives a next state, then the rest. -/
theorem run_cons_next {i : Input} {is : List Input} {s s1 s2 : State} {es : List Event}
    (h1 : stepInput i s = .next s1) (h2 : run is s1 = .next (s2, es)) :
    run (i :: is) s = .next (s2, s1.event?.toList ++ es) := by
  simp only [run, h1, h2]

/-- A run that gives a next state, split at its first input. -/
theorem run_cons_inv {i : Input} {is : List Input} {s t : State} {es : List Event}
    (h : run (i :: is) s = .next (t, es)) :
    ∃ s1 es1, stepInput i s = .next s1 ∧ run is s1 = .next (t, es1) ∧ es = s1.event?.toList ++ es1 := by
  simp only [run] at h
  split at h
  · next s1 h1 =>
    split at h
    · next s2 es1 h2 =>
      injection h with h
      injection h with ha hb
      exact ⟨s1, es1, h1, by rw [h2, ha], hb.symm⟩
    · cases h
    · cases h
  · cases h
  · cases h

/-- Two parts of a stream, one after the other. -/
theorem run_append {is js : List Input} {s s1 s2 : State} {es1 es2 : List Event}
    (h1 : run is s = .next (s1, es1)) (h2 : run js s1 = .next (s2, es2)) :
    run (is ++ js) s = .next (s2, es1 ++ es2) := by
  induction is generalizing s es1 with
  | nil =>
    simp only [run_nil, Host.Outcome.next.injEq, Prod.mk.injEq] at h1
    obtain ⟨rfl, rfl⟩ := h1
    exact h2
  | cons i is ih =>
    obtain ⟨u, es, hu, hr, rfl⟩ := run_cons_inv h1
    rw [List.cons_append, run_cons_next hu (ih hr), List.append_assoc]

/-- A run that gives a next state, split between two parts of the stream. -/
theorem run_append_inv {is js : List Input} {s t : State} {es : List Event}
    (h : run (is ++ js) s = .next (t, es)) :
    ∃ u es1 es2, run is s = .next (u, es1) ∧ run js u = .next (t, es2) ∧ es = es1 ++ es2 := by
  induction is generalizing s es with
  | nil => exact ⟨s, [], es, rfl, h, rfl⟩
  | cons i is ih =>
    obtain ⟨u, es1, hu, hr, rfl⟩ := run_cons_inv (by simpa using h)
    obtain ⟨v, e1, e2, h1, h2, rfl⟩ := ih hr
    exact ⟨v, _, e2, run_cons_next hu h1, h2, (List.append_assoc _ _ _).symm⟩

/-- A prefix of a stream that runs without an event runs without an event. -/
theorem run_take_quiet {is : List Input} {s t : State} (h : run is s = .next (t, [])) (k : Nat) :
    ∃ u, run (is.take k) s = .next (u, []) := by
  obtain ⟨u, es1, es2, h1, _, h3⟩ := run_append_inv (is := is.take k) (js := is.drop k)
    (by rw [List.take_append_drop]; exact h)
  obtain ⟨rfl, _⟩ := List.append_eq_nil_iff.mp h3.symm
  exact ⟨u, h1⟩

/-- The pending inputs play no part in an operation. -/
theorem exec_setInputs (i : Instr) (s : State) (is : List Input) :
    exec i { s with inputs := is }
      = match exec i s with
        | .next t => .next { t with inputs := is }
        | .fault r => .fault r
        | .refused r => .refused r := by
  cases i with
  | payloadData b =>
    by_cases h : s.cnt.toNat < 255
    · simp only [exec, execPayloadData, pushByte_of_lt (s := s) b h,
        pushByte_of_lt (s := { s with inputs := is }) b h]; rfl
    · simp only [exec, execPayloadData, pushByte_of_ge (s := s) b h,
        pushByte_of_ge (s := { s with inputs := is }) b h]
  | payloadCkhi b =>
    by_cases h : s.cnt.toNat < 255
    · simp only [exec, execPayloadCkhi, pushByte_of_lt (s := s) b h,
        pushByte_of_lt (s := { s with inputs := is }) b h]; rfl
    · simp only [exec, execPayloadCkhi, pushByte_of_ge (s := s) b h,
        pushByte_of_ge (s := { s with inputs := is }) b h]
  | payloadCkloOk b =>
    by_cases h : s.cnt.toNat < 255
    · by_cases hn : 2 ≤ s.n.toNat
      · simp only [exec, execPayloadCkloOk, pushByte_of_lt (s := s) b h,
          pushByte_of_lt (s := { s with inputs := is }) b h,
          expectedSum_of_le (s := s.pushed b) b hn,
          expectedSum_of_le (s := State.pushed b { s with inputs := is }) b hn]; rfl
      · simp only [exec, execPayloadCkloOk, pushByte_of_lt (s := s) b h,
          pushByte_of_lt (s := { s with inputs := is }) b h,
          expectedSum_of_lt (s := s.pushed b) b hn,
          expectedSum_of_lt (s := State.pushed b { s with inputs := is }) b hn]
    · simp only [exec, execPayloadCkloOk, pushByte_of_ge (s := s) b h,
        pushByte_of_ge (s := { s with inputs := is }) b h]
  | payloadCkloBad b =>
    by_cases h : s.cnt.toNat < 255
    · by_cases hn : 2 ≤ s.n.toNat
      · simp only [exec, execPayloadCkloBad, pushByte_of_lt (s := s) b h,
          pushByte_of_lt (s := { s with inputs := is }) b h,
          expectedSum_of_le (s := s.pushed b) b hn,
          expectedSum_of_le (s := State.pushed b { s with inputs := is }) b hn]; rfl
      · simp only [exec, execPayloadCkloBad, pushByte_of_lt (s := s) b h,
          pushByte_of_lt (s := { s with inputs := is }) b h,
          expectedSum_of_lt (s := s.pushed b) b hn,
          expectedSum_of_lt (s := State.pushed b { s with inputs := is }) b hn]
    · simp only [exec, execPayloadCkloBad, pushByte_of_ge (s := s) b h,
        pushByte_of_ge (s := { s with inputs := is }) b h]
  | decode p =>
    obtain ⟨_, _, _, _, _, _, profile, _, _, _⟩ := s
    cases profile <;> rfl
  | seek1Hdr1 => rfl
  | seek1Skip b => rfl
  | seek2Hdr2 => rfl
  | seek2Miss b => rfl
  | lenBad b => rfl
  | lenOk b => rfl
  | clear => rfl
  | reset => rfl

/-- Nor in the taking of an input. -/
theorem stepInput_setInputs (i : Input) (s : State) (is : List Input) :
    stepInput i { s with inputs := is }
      = match stepInput i s with
        | .next t => .next { t with inputs := is }
        | .fault r => .fault r
        | .refused r => .refused r := by
  show (match decode s.rowCtx (i.code s.st) with
    | .ok instr => exec instr { s with inputs := is }
    | .error _ => .fault .noOperation)
      = match (match decode s.rowCtx (i.code s.st) with
          | .ok instr => exec instr s
          | .error _ => .fault .noOperation) with
        | .next t => .next { t with inputs := is }
        | .fault r => .fault r
        | .refused r => .refused r
  cases decode s.rowCtx (i.code s.st) with
  | ok instr => exact exec_setInputs instr s is
  | error _ => rfl

/-- An input that is taken selects an operation, which is performed. -/
theorem stepInput_exec {i : Input} {s t : State} (h : stepInput i s = .next t) :
    ∃ instr, decode s.rowCtx (i.code s.st) = .ok instr ∧ exec instr s = .next t := by
  unfold stepInput at h
  split at h
  · next instr hd => exact ⟨instr, hd, h⟩
  · cases h

/-- A step with an input pending takes it (R100). -/
theorem step_cons {s : State} {i : Input} {rest : List Input} (h : s.inputs = i :: rest) :
    step s = stepInput i { s with inputs := rest } := by
  unfold step State.fetch
  rw [h]

/-- A step with no input pending is idle (60_exceptions.md R212). -/
theorem step_idle {s : State} (h : s.inputs = []) : step s = .next s.quiet := by
  unfold step State.fetch
  rw [h]

end Sys2Proof.Machine
end

