-- ==== Sys2Proof/Laws/Frame.lean ====
section
/-! SUPPORT. What a stream does to a frame's registers: the header, the run of payload bytes (one induction,
packaged once) and the state before a frame's last byte (spec/40_frame_sync.md R101 to R108). -/

namespace Sys2Proof.Machine

theorem byteSum_append (p q : ByteString) : byteSum (p ++ q) = byteSum p + byteSum q := by
  simp [byteSum]

@[simp] theorem byteSum_nil : byteSum [] = 0 := rfl
@[simp] theorem byteSum_cons (b : Byte) (p : ByteString) : byteSum (b :: p) = b.toNat + byteSum p := rfl

/-- A byte sum is at most 255 a byte. -/
theorem byteSum_le (p : ByteString) : byteSum p ≤ 255 * p.length := by
  induction p with
  | nil => simp
  | cons b p ih =>
    have := b.isLt
    simp only [byteSum_cons, List.length_cons]
    omega

/-- From SEEK1 a header enters LEN with the sum 0x0178. -/
theorem run_header {s : State} (h : s.st = .seek1) :
    run (feed [0xAB#8, 0xCD#8]) s = .next ({ s.quiet with st := .len, sum := 0x0178#16 }, []) :=
  run_cons_next (es := []) (stepInput_hdr1 h) (run_cons_next (es := []) (stepInput_hdr2 rfl) rfl)

/-- What a run of payload bytes leaves. -/
structure AfterData (s t : State) (p : ByteString) : Prop where
  st : t.st = .payload
  n : t.n = s.n
  cnt : t.cnt.toNat = s.cnt.toNat + p.length
  sum : t.sum = BitVec.ofNat 16 (s.sum.toNat + byteSum p)
  bytes : t.bufBytes t.cnt.toNat = s.bufBytes s.cnt.toNat ++ p
  profile : t.profile = s.profile

/-- Payload bytes, up to the checksum, are buffered and summed without an event (R107). -/
theorem run_data (p : ByteString) {s : State} (hst : s.st = .payload)
    (hc : s.cnt.toNat + p.length + 2 ≤ s.n.toNat) :
    ∃ t, run (feed p) s = .next (t, []) ∧ AfterData s t p := by
  induction p generalizing s with
  | nil => exact ⟨s, rfl, hst, rfl, rfl, by simp, by simp, rfl⟩
  | cons b p ih =>
    have hn := s.n.isLt
    have hb := b.isLt
    simp only [List.length_cons] at hc
    have h1 := stepInput_data hst (by omega) b
    have hcnt : (s.pushed b).cnt.toNat = s.cnt.toNat + 1 := pushed_cnt_toNat b (by omega)
    obtain ⟨t, ht, a⟩ := ih (s := { (s.pushed b).quiet with sum := addSum s.sum b }) hst
      (by show (s.pushed b).cnt.toNat + _ + 2 ≤ s.n.toNat; omega)
    refine ⟨t, run_cons_next (es := []) h1 ht, a.st, a.n, ?_, ?_, ?_, a.profile⟩
    · rw [a.cnt]
      show (s.pushed b).cnt.toNat + _ = _
      rw [hcnt, List.length_cons]
      omega
    · rw [a.sum]
      show BitVec.ofNat 16 ((addSum s.sum b).toNat + _) = _
      apply BitVec.eq_of_toNat_eq
      rw [addSum_toNat, byteSum_cons, BitVec.toNat_ofNat, BitVec.toNat_ofNat]
      omega
    · have h2 := bufBytes_write_succ (s := s) (t := { (s.pushed b).quiet with sum := addSum s.sum b })
        (i := s.cnt.toNat) (b := b) rfl rfl
      have h3 : State.cnt { (s.pushed b).quiet with sum := addSum s.sum b } = (s.pushed b).cnt := rfl
      rw [a.bytes, h3, hcnt, h2, List.append_assoc]
      rfl

/-- The state before a frame's last byte. -/
structure BeforeLast (s t : State) (p : ByteString) (hi : Byte) : Prop where
  st : t.st = .payload
  n : t.n.toNat = p.length + 2
  cnt : t.cnt.toNat = p.length + 1
  sum : t.sum = frameChecksum p
  bytes : t.bufBytes p.length = p
  ckHi : t.bufRead p.length = hi
  profile : t.profile = s.profile

/-- From SEEK1, a frame up to the checksum's high byte gives no event (R101, R103, R105, R107, R108). -/
theorem run_toLast {s : State} (p : ByteString) (hi : Byte) (h : s.st = .seek1) (hp : p.length + 2 ≤ 255) :
    ∃ t, run (feed ([0xAB#8, 0xCD#8, BitVec.ofNat 8 (p.length + 2)] ++ p ++ [hi])) s = .next (t, [])
      ∧ BeforeLast s t p hi := by
  have hN : (BitVec.ofNat 8 (p.length + 2)).toNat = p.length + 2 := by
    rw [BitVec.toNat_ofNat]
    omega
  obtain ⟨u, hu, a⟩ := run_data p
    (s := { s.quiet with n := BitVec.ofNat 8 (p.length + 2), cnt := 0#8,
                         sum := addSum 0x0178#16 (BitVec.ofNat 8 (p.length + 2)), st := .payload }) rfl
    (by show 0 + p.length + 2 ≤ (BitVec.ofNat 8 (p.length + 2)).toNat; omega)
  have hc : u.cnt.toNat = p.length := by rw [a.cnt]; show 0 + p.length = _; omega
  have hn : u.n.toNat = p.length + 2 := by rw [a.n]; exact hN
  refine ⟨(u.pushed hi).quiet, ?_, a.st, hn, ?_, ?_, ?_, ?_, a.profile⟩
  · rw [feed_append, feed_append]
    refine run_append (es1 := []) (run_append (es1 := []) ?_ hu) ?_
    · refine run_append (is := feed [0xAB#8, 0xCD#8]) (es1 := []) (run_header h) ?_
      exact run_cons_next (es := []) (stepInput_lenOk rfl (by omega)) rfl
    · exact run_cons_next (es := []) (stepInput_ckHi a.st (by omega) hi) rfl
  · show (u.pushed hi).cnt.toNat = _
    rw [pushed_cnt_toNat hi (by omega), hc]
  · show u.sum = _
    rw [a.sum]
    show BitVec.ofNat 16 ((addSum 0x0178#16 _).toNat + _) = BitVec.ofNat 16 (0xAB + 0xCD + (p.length + 2) + byteSum p)
    apply BitVec.eq_of_toNat_eq
    rw [addSum_toNat, hN]
    simp only [BitVec.toNat_ofNat]
    omega
  · have h1 : State.bufBytes (u.pushed hi).quiet p.length = u.bufBytes p.length :=
      bufBytes_write (s := u) (t := (u.pushed hi).quiet) (i := u.cnt.toNat) rfl rfl (by omega)
    rw [h1, ← hc, a.bytes]
    rfl
  · rw [← hc]
    exact bufRead_write_same (s := u) (t := (u.pushed hi).quiet) (b := hi) rfl

/-- How many bytes are taken for certain without a store: three from SEEK1, two from SEEK2, one from LEN
(70_reset_and_hazards.md R238). -/
def quietBytes : St → Nat
  | .seek1 => 3
  | .seek2 => 2
  | .len => 1
  | .payload => 0

/-- That many bytes, whatever they are, leave the buffer and the profile as they were (R101 to R106, R238). -/
theorem run_quietBytes (bs : ByteString) {s : State} (h : bs.length ≤ quietBytes s.st) :
    ∃ t es, run (feed bs) s = .next (t, es) ∧ t.buf = s.buf ∧ t.era = s.era ∧ t.profile = s.profile := by
  induction bs generalizing s with
  | nil => exact ⟨s, [], rfl, rfl, rfl, rfl⟩
  | cons b bs ih =>
    rw [List.length_cons] at h
    have one : ∃ u, stepInput (.byte b) s = .next u ∧ bs.length ≤ quietBytes u.st
        ∧ u.buf = s.buf ∧ u.era = s.era ∧ u.profile = s.profile := by
      cases hs : s.st with
      | seek1 =>
        rw [hs] at h
        refine ⟨_, stepInput_seek1 hs b, ?_⟩
        split
        · exact ⟨Nat.le_of_succ_le_succ h, rfl, rfl, rfl⟩
        · exact ⟨by rw [quiet_st, hs]; exact Nat.le_of_succ_le h, rfl, rfl, rfl⟩
      | seek2 =>
        rw [hs] at h
        have h1 : bs.length ≤ 1 := Nat.le_of_succ_le_succ h
        refine ⟨_, stepInput_seek2 hs b, ?_⟩
        split
        · exact ⟨h1, rfl, rfl, rfl⟩
        · exact ⟨Nat.le_succ_of_le (Nat.le_succ_of_le h1), rfl, rfl, rfl⟩
      | len =>
        rw [hs] at h
        have h0 : bs.length ≤ 0 := Nat.le_of_succ_le_succ h
        refine ⟨_, stepInput_len hs b, ?_⟩
        split
        · exact ⟨Nat.le_trans h0 (Nat.zero_le _), rfl, rfl, rfl⟩
        · exact ⟨h0, rfl, rfl, rfl⟩
      | payload =>
        rw [hs] at h
        exact absurd h (Nat.not_succ_le_zero _)
    obtain ⟨u, hu, hl, h1, h2, h3⟩ := one
    obtain ⟨t, es, ht, e1, e2, e3⟩ := ih hl
    exact ⟨t, _, run_cons_next hu ht, e1.trans h1, e2.trans h2, e3.trans h3⟩

end Sys2Proof.Machine
end

