-- ==== Sys2Proof/Laws/Measure.lean ====
section
/-! SUPPORT. What DECODE answers, step by step: the fields of a payload, the inversion of `decodePayload`, and
the loop of parse_decimal over a run of digits (spec/41_payload_decode.md R140 to R152). -/

namespace Sys2Proof.Machine

/-- A payload of 14 bytes or more is its fields in order and a rest (R78, R141). -/
theorem payloadFields_eq_some {p : ByteString} {f : PayloadFields} (h : payloadFields p = some f) :
    ∃ d2 d3 d4 d5 d6 d7 d8 rest,
      p = f.modeIndex :: f.rangeCode :: d2 :: d3 :: d4 :: d5 :: d6 :: d7 :: d8 :: f.progressTens
          :: f.progressOnes :: f.statusA :: f.statusB :: f.statusC :: rest
        ∧ f.display = [d2, d3, d4, d5, d6, d7, d8] := by
  unfold payloadFields at h
  split at h
  · next m r d2 d3 d4 d5 d6 d7 d8 t o a b c rest =>
    cases h
    exact ⟨d2, d3, d4, d5, d6, d7, d8, rest, rfl, rfl⟩
  · cases h

/-- A payload has its fields exactly when it has 14 bytes (R141). -/
theorem payloadFields_isSome (p : ByteString) : (payloadFields p).isSome = true ↔ 14 ≤ p.length := by
  constructor
  · intro h
    obtain ⟨f, hf⟩ := Option.isSome_iff_exists.mp h
    obtain ⟨_, _, _, _, _, _, _, rest, rfl, _⟩ := payloadFields_eq_some hf
    simp only [List.length_cons]
    omega
  · intro h
    match p, h with
    | _ :: _ :: _ :: _ :: _ :: _ :: _ :: _ :: _ :: _ :: _ :: _ :: _ :: _ :: _, _ => rfl

/-- The display field is bytes 2 to 8 (R78). -/
theorem display_eq {p : ByteString} {f : PayloadFields} (h : payloadFields p = some f) :
    f.display = (p.drop 2).take 7 := by
  obtain ⟨_, _, _, _, _, _, _, rest, rfl, hd⟩ := payloadFields_eq_some h
  rw [hd]
  rfl

/-- The display text, when it is ASCII (R144). -/
theorem displayText_eq_some {d t : ByteString} :
    displayText d = some t ↔ (∀ c ∈ d, c.toNat < 0x80) ∧ t = d.filter (· ≠ 0x20#8) := by
  unfold displayText
  split
  · next h =>
    simp only [List.any_eq_true, decide_eq_true_eq] at h
    obtain ⟨c, hc, h8⟩ := h
    constructor
    · intro h
      cases h
    · rintro ⟨h, _⟩
      have := h c hc
      omega
  · next h =>
    simp only [List.any_eq_true, decide_eq_true_eq, not_exists, not_and, Nat.not_le] at h
    have hf : d.filter (fun c => c != space) = d.filter (· ≠ 0x20#8) := by
      refine List.filter_congr fun c _ => ?_
      show (c != 0x20#8) = decide (c ≠ 0x20#8)
      by_cases hc : c = 0x20#8 <;> simp [hc]
    rw [hf]
    constructor
    · intro h'
      exact ⟨h, (Option.some.inj h').symm⟩
    · rintro ⟨_, rfl⟩
      rfl

/-- The display text is refused exactly on a byte that is not ASCII (R144). -/
theorem displayText_eq_none {d : ByteString} : displayText d = none ↔ ∃ c ∈ d, 0x80 ≤ c.toNat := by
  unfold displayText
  split
  · next h => simpa using h
  · next h => simpa using h

/-- A text is a marker by membership (R145). -/
theorem isOverloadText_iff (P : Profile) (t : ByteString) :
    isOverloadText P t = true ↔ t ∈ P.overloadMarkers := List.contains_iff_mem

/-- The overload test and the parse, when they answer (R145, R146). -/
theorem readValue_eq_some {P : Profile} {t : ByteString} {ov : Bool} {v : Option Decimal}
    (h : readValue P t = some (ov, v)) :
    (ov = true ∧ v = none ∧ t ∈ P.overloadMarkers)
      ∨ (ov = false ∧ t ∉ P.overloadMarkers ∧ ∃ d, v = some d ∧ parseDecimal t = some d) := by
  unfold readValue at h
  split at h
  · next ht =>
    cases h
    exact .inl ⟨rfl, rfl, (isOverloadText_iff P t).mp ht⟩
  · next ht =>
    rw [isOverloadText_iff] at ht
    split at h
    · next d hd =>
      cases h
      exact .inr ⟨rfl, ht, d, rfl, hd⟩
    · cases h

/-- A known mode has an index below N_MODES (R142). -/
theorem modeName_eq_some {P : Profile} {i : Byte} {name : ByteString} (h : modeName P i = some name) :
    i.toNat < P.modes.length := (List.getElem?_eq_some_iff.mp h).1

theorem modeName_eq_none {P : Profile} {i : Byte} : modeName P i = none ↔ P.modes.length ≤ i.toNat :=
  List.getElem?_eq_none_iff

/-- Everything a successful DECODE says (R140): its fields, its mode's name, its text and its value. -/
theorem decodePayload_ok {P : Profile} {p : ByteString} {m : Measurement} (h : decodePayload P p = .ok m) :
    ∃ f name t ov v0, payloadFields p = some f ∧ modeName P f.modeIndex = some name
      ∧ displayText f.display = some t ∧ readValue P t = some (ov, v0)
      ∧ m = { mode := f.modeIndex
              rangeCode := f.rangeCode
              displayText := t
              isOverload := ov
              value := normaliseValue P v0 (unitOf P name f.rangeCode)
              unit := normaliseUnit P (unitOf P name f.rangeCode)
              progress := progressOf f.progressTens f.progressOnes
              flags := statusFlags P.statusLayout f.statusA f.statusB f.statusC } := by
  unfold decodePayload at h
  split at h
  · cases h
  · next f hf =>
    split at h
    · cases h
    · next name hn =>
      split at h
      · cases h
      · next t ht =>
        split at h
        · cases h
        · next ov v0 hv =>
          cases h
          exact ⟨f, name, t, ov, v0, hf, hn, ht, hv, rfl⟩

/-- Scaling leaves the sign and the digits and moves the exponent (R148). -/
theorem normaliseValue_some (P : Profile) (d : Decimal) (u : Option ByteString) :
    normaliseValue P (some d) u
      = some { d with exp := d.exp + ((u.bind (unitExponent P)).getD 0) } := by
  unfold normaliseValue
  cases h : u.bind (unitExponent P) with
  | none => simp
  | some e => simp

@[simp] theorem normaliseValue_none (P : Profile) (u : Option ByteString) :
    normaliseValue P none u = none := rfl

/-- progress is the two bytes in decimal, without a wrap (R150). -/
theorem progressOf_toNat (tens ones : Byte) :
    (progressOf tens ones).toNat = tens.toNat * 10 + ones.toNat := by
  have h1 := tens.isLt
  have h2 := ones.isLt
  simp only [progressOf, BitVec.toNat_add, BitVec.toNat_mul, BitVec.toNat_setWidth, BitVec.toNat_ofNat]
  omega

/-! ## The loop of parse_decimal -/

/-- A run of digits read by the loop (R146). -/
theorem scanNumber_digits (ds rest : ByteString) (a : Scan) (h : ∀ c ∈ ds, isDigit c = true) :
    scanNumber (ds ++ rest) a
      = scanNumber rest
          { mant := ds.foldl (fun x c => x * 10 + (c.toNat - 0x30)) a.mant
            digits := a.digits + ds.length
            frac := if a.point then a.frac + ds.length else a.frac
            point := a.point } := by
  induction ds generalizing a with
  | nil => simp
  | cons c ds ih =>
    rw [List.cons_append, scanNumber, if_pos (h c (by simp)), ih _ fun d hd => h d (by simp [hd])]
    simp only [List.foldl_cons, List.length_cons]
    cases a.point <;> simp [Nat.add_assoc, Nat.add_comm 1]

/-- The point read by the loop, once (R146). -/
theorem scanNumber_point (rest : ByteString) (a : Scan) (h : a.point = false) :
    scanNumber (0x2E#8 :: rest) a = scanNumber rest { a with point := true } := by
  have hd : ¬ isDigit 0x2E#8 = true := by decide
  rw [scanNumber, if_neg hd, if_pos ⟨rfl, h⟩]

/-- A byte that is neither a digit nor the first point ends the loop in an error (R146). -/
theorem scanNumber_reject {c : Byte} (rest : ByteString) {a : Scan} (hd : isDigit c = false)
    (hp : ¬ (c = 0x2E#8 ∧ a.point = false)) : scanNumber (c :: rest) a = none := by
  rw [scanNumber, if_neg (by simp [hd]), if_neg hp]

/-- Every text is a run of digits before a rest that does not begin with one. -/
theorem exists_digits (t : ByteString) :
    ∃ ds rest, t = ds ++ rest ∧ (∀ c ∈ ds, isDigit c = true) ∧ ∀ c cs, rest = c :: cs → isDigit c = false := by
  induction t with
  | nil => exact ⟨[], [], rfl, by simp, by simp⟩
  | cons c t ih =>
    cases hc : isDigit c with
    | true =>
      obtain ⟨ds, rest, rfl, h1, h2⟩ := ih
      refine ⟨c :: ds, rest, rfl, ?_, h2⟩
      intro d hd
      rcases List.mem_cons.mp hd with rfl | hd
      · exact hc
      · exact h1 d hd
    | false =>
      refine ⟨[], c :: t, rfl, by simp, ?_⟩
      intro d ds h
      cases h
      exact hc

/-- Only bytes 0 to 13 are decoded (R141). -/
theorem decodePayload_take {P : Profile} {p : ByteString} (h : 14 ≤ p.length) :
    decodePayload P (p.take 14) = decodePayload P p := by
  match p, h with
  | _ :: _ :: _ :: _ :: _ :: _ :: _ :: _ :: _ :: _ :: _ :: _ :: _ :: _ :: _, _ => rfl

/-- A table with one entry a key: a search for an entry's key finds that entry. -/
theorem find?_key {α β : Type} [DecidableEq β] (key : α → β) {l : List α} (hn : (l.map key).Nodup) {x : α}
    (hx : x ∈ l) : l.find? (fun y => decide (key y = key x)) = some x := by
  induction l with
  | nil => cases hx
  | cons y l ih =>
    rw [List.map_cons, List.nodup_cons] at hn
    rw [List.find?_cons]
    rcases List.mem_cons.mp hx with rfl | hx
    · simp
    · have hy : key y ≠ key x := fun h => hn.1 (h ▸ List.mem_map_of_mem hx)
      simp only [hy, decide_false]
      exact ih hn.2 hx

/-- What `Profile.wf` says, clause by clause. -/
theorem profile_wf_iff (P : Profile) :
    P.wf = true ↔ P.modes.length ≤ 256 ∧ (∀ e ∈ P.units, e.wf = true) ∧ (∀ e ∈ P.exponentTable, e.wf = true)
      ∧ (P.units.map fun e => (e.mode, e.range)).Nodup ∧ (P.exponentTable.map ExponentEntry.byte).Nodup := by
  simp only [Profile.wf, Bool.and_eq_true, decide_eq_true_eq, List.all_eq_true, and_assoc]

/-- An entry of UNITS is what a read of its key gives (20_memory.md R53). -/
theorem unitOf_of_mem {P : Profile} (h : P.wf = true) {e : UnitEntry} (he : e ∈ P.units) :
    unitOf P e.mode e.range = some e.unit := by
  have hf := find?_key (fun e : UnitEntry => (e.mode, e.range)) ((profile_wf_iff P).mp h).2.2.2.1 he
  simp only [Prod.mk.injEq, Bool.decide_and] at hf
  rw [unitOf, hf]
  rfl

/-- An entry of EXPONENT_TABLE is what a read of its key gives (20_memory.md R53). -/
theorem exponentOf_of_mem {P : Profile} (h : P.wf = true) {e : ExponentEntry} (he : e ∈ P.exponentTable) :
    exponentOf P e.byte = some e.exponent := by
  rw [exponentOf, find?_key ExponentEntry.byte ((profile_wf_iff P).mp h).2.2.2.2 he]
  rfl

/-- After a whole character the rest of UTF-8 text is UTF-8 text; an ASCII byte is a whole character (R86). -/
theorem isUtf8_cons {c : Byte} (h : isAscii c = true) (cs : ByteString) : isUtf8 (c :: cs) = isUtf8 cs := by
  simp [isUtf8, utf8From, utf8Lead, h]

end Sys2Proof.Machine
end

