-- ==== Sys2Proof/Laws/PerInstr.lean ====
section
/-! SUPPORT. Statements made per instruction: the encoding of an operation against the printed `match` and `mask`
of its row (spec/30_encoding.md R74, R76; spec/opcode_table.json). -/

namespace Sys2Proof.Laws.TableRow

/-- The `match` and the `mask` that opcode_table.json prints for an operation; CTRL and DECODE rows have no bits
(R74). -/
def printed : Instr → Option (BitVec 10 × BitVec 10)
  | .seek1Hdr1 => some (0x0AB#10, 0x3FF#10)
  | .seek1Skip _ => some (0x000#10, 0x300#10)
  | .seek2Hdr2 => some (0x1CD#10, 0x3FF#10)
  | .seek2Miss _ => some (0x100#10, 0x300#10)
  | .lenBad _ => some (0x200#10, 0x3FE#10)
  | .lenOk _ => some (0x200#10, 0x300#10)
  | .payloadData _ => some (0x300#10, 0x300#10)
  | .payloadCkhi _ => some (0x300#10, 0x300#10)
  | .payloadCkloOk _ => some (0x300#10, 0x300#10)
  | .payloadCkloBad _ => some (0x300#10, 0x300#10)
  | .clear => none
  | .reset => none
  | .decode _ => none

/-- A word lies in a printed row: `(w & mask) = match`; an operation without a word has no printed row. -/
def fits : Code → Option (BitVec 10 × BitVec 10) → Bool
  | .sync10 w, some (pattern, mask) => decide (w &&& mask = pattern)
  | .sync10 _, none => false
  | .ctrlClear, row => row.isNone
  | .ctrlReset, row => row.isNone
  | .decode _, row => row.isNone

/-- The encoding of a well-formed operation lies in the row that opcode_table.json prints for it. -/
def Statement (i : Instr) : Prop := i.wf = true → fits (encode i) (printed i) = true

theorem seek1Hdr1 : Statement .seek1Hdr1 := fun _ => rfl

theorem seek1Skip : ∀ b : Byte, Statement (.seek1Skip b) := by unfold Statement; decide

theorem seek2Hdr2 : Statement .seek2Hdr2 := fun _ => rfl

theorem seek2Miss : ∀ b : Byte, Statement (.seek2Miss b) := by unfold Statement; decide

theorem lenBad : ∀ b : Byte, Statement (.lenBad b) := by unfold Statement; decide

theorem lenOk : ∀ b : Byte, Statement (.lenOk b) := by unfold Statement; decide

theorem payloadData : ∀ b : Byte, Statement (.payloadData b) := by unfold Statement; decide

theorem payloadCkhi : ∀ b : Byte, Statement (.payloadCkhi b) := by unfold Statement; decide

theorem payloadCkloOk : ∀ b : Byte, Statement (.payloadCkloOk b) := by unfold Statement; decide

theorem payloadCkloBad : ∀ b : Byte, Statement (.payloadCkloBad b) := by unfold Statement; decide

theorem clear : Statement .clear := fun _ => rfl

theorem reset : Statement .reset := fun _ => rfl

theorem decode (p : ByteString) : Statement (.decode p) := fun _ => rfl

end Sys2Proof.Laws.TableRow
end

