-- ==== Sys2Proof/Tests/Slice0.lean ====
section
/-! SUPPORT. Tests and witnesses. Expected results are the vectors of spec/95_test_vectors.md and words written out
from 30_encoding.md R74 to R76. `F` is the test fixture of 95_test_vectors.md §2: no statement rests on it. -/

namespace Sys2Proof.Tests

open Sys2Proof Sys2Proof.Machine

/-! ## Fixtures -/

def strV : ByteString := [0x56#8]
def strMV : ByteString := [0x6D#8, 0x56#8]
def strHz : ByteString := [0x48#8, 0x7A#8]
def strOhm : ByteString := [0xCE#8, 0xA9#8]
def nameACV : ByteString := [0x41#8, 0x43#8, 0x56#8]
def nameACmV : ByteString := [0x41#8, 0x43#8, 0x6D#8, 0x56#8]
def nameDCV : ByteString := [0x44#8, 0x43#8, 0x56#8]
def nameDCmV : ByteString := [0x44#8, 0x43#8, 0x6D#8, 0x56#8]
def namePct : ByteString := [0x25#8]
def nameOHM : ByteString := [0x4F#8, 0x48#8, 0x4D#8]

/-- The entries of one mode name for some range codes with one unit. -/
def entries (mode : ByteString) (ranges : ByteString) (unit : ByteString) : List UnitEntry :=
  ranges.map fun r => ⟨mode, r, unit⟩

/-- The fixture profile F (95_test_vectors.md §2). -/
def F : Profile where
  modes := [nameACV, nameACmV, nameDCV, nameDCmV, strHz, namePct, nameOHM]
  units :=
    entries nameACV [0x30#8, 0x31#8, 0x32#8, 0x33#8] strV
      ++ entries nameDCV [0x30#8, 0x31#8, 0x32#8, 0x33#8] strV
      ++ entries nameACmV [0x30#8] strMV
      ++ entries nameDCmV [0x30#8] strMV
      ++ entries strHz [0x30#8, 0x31#8] strHz
      ++ entries strHz [0x32#8, 0x33#8, 0x34#8] (0x6B#8 :: strHz)
      ++ entries strHz [0x35#8] (0x4D#8 :: strHz)
      ++ entries namePct [0x30#8] [0x25#8]
      ++ entries nameOHM [0x30#8] strOhm
      ++ entries nameOHM [0x31#8, 0x32#8, 0x33#8] (0x6B#8 :: strOhm)
      ++ entries nameOHM [0x34#8, 0x35#8, 0x36#8] (0x4D#8 :: strOhm)
  overloadMarkers := defaultOverloadMarkers
  exponentTable := defaultExponentTable
  statusLayout := defaultStatusLayout

/-- A state of the synchronizer: `st sum n cnt` and the listed buffer bytes. -/
def mk (st : St) (sum : Half) (n cnt : Byte) (buf : Memory) : State :=
  { State.reset with st := st, sum := sum, n := n, cnt := cnt, buf := buf }

/-- The state after a step that emitted an event. -/
def emitted (s : State) (e : Event) (p : Ports) : State := { s with output := some (.event e), ports := p }

/-- A state with F loaded. -/
def loaded : State := State.reset.withProfile F

/-- The last two bytes of the buffer before the last byte of a frame of N = 255 (vector V9). -/
def fullBuf : Memory := [(252, 0xFF#8), (253, 0xFE#8)]

/-- The payload of vector V9, its length and its sum. -/
def longest : ByteString := List.replicate 253 0xFF#8
theorem longest_length : longest.length = 253 := List.length_replicate
theorem byteSum_replicate (k : Nat) (b : Byte) : byteSum (List.replicate k b) = k * b.toNat := by simp [byteSum]
theorem longest_sum : byteSum longest = 64515 := byteSum_replicate 253 0xFF#8

def payloadT1 : ByteString :=
  [0x01#8, 0x30#8, 0x20#8, 0x20#8, 0x20#8, 0x35#8, 0x2E#8, 0x35#8, 0x34#8, 0#8, 0#8, 0#8, 0#8, 0#8]
def payloadT2 : ByteString :=
  [0x06#8, 0x30#8, 0x20#8, 0x20#8, 0x2E#8, 0x4F#8, 0x4C#8, 0x20#8, 0x20#8, 0#8, 0#8, 0#8, 0#8, 0#8]
def payloadT3 : ByteString :=
  [0x06#8, 0x34#8, 0x20#8, 0x20#8, 0x4F#8, 0x2E#8, 0x4C#8, 0x20#8, 0x20#8, 0#8, 0#8, 0#8, 0#8, 0#8]
def payloadT10 : ByteString :=
  [0x02#8, 0x39#8, 0x20#8, 0x31#8, 0x32#8, 0x2E#8, 0x33#8, 0x34#8, 0x35#8, 0#8, 0#8, 0#8, 0#8, 0#8]
def payloadT27 : ByteString :=
  [0x02#8, 0x30#8, 0x20#8, 0x20#8, 0x30#8, 0x2E#8, 0x30#8, 0x30#8, 0x30#8, 0#8, 0#8, 0x05#8, 0x03#8, 0x06#8]
def payloadT33 : ByteString :=
  [0x05#8, 0x30#8, 0x20#8, 0x20#8, 0x35#8, 0x30#8, 0x2E#8, 0x30#8, 0x20#8, 0#8, 0#8, 0#8, 0#8, 0#8]

def noFlags : StatusFlags := ⟨false, false, false, false, true, false, false, false, false, false, false⟩

def resultT1 : Measurement :=
  ⟨0x01#8, 0x30#8, [0x35#8, 0x2E#8, 0x35#8, 0x34#8], false, some ⟨false, 554#24, -5⟩, some strV, 0#12, noFlags⟩
def resultT2 : Measurement :=
  ⟨0x06#8, 0x30#8, [0x2E#8, 0x4F#8, 0x4C#8], true, none, some strOhm, 0#12, noFlags⟩
def resultT3 : Measurement :=
  ⟨0x06#8, 0x34#8, [0x4F#8, 0x2E#8, 0x4C#8], true, none, some strOhm, 0#12, noFlags⟩
def resultT10 : Measurement :=
  ⟨0x02#8, 0x39#8, [0x31#8, 0x32#8, 0x2E#8, 0x33#8, 0x34#8, 0x35#8], false, some ⟨false, 12345#24, -3⟩, none, 0#12,
    noFlags⟩
def resultT27 : Measurement :=
  ⟨0x02#8, 0x30#8, [0x30#8, 0x2E#8, 0x30#8, 0x30#8, 0x30#8], false, some ⟨false, 0#24, -3⟩, some strV, 0#12,
    ⟨false, true, false, true, true, true, true, false, true, true, false⟩⟩
def resultT33 : Measurement :=
  ⟨0x05#8, 0x30#8, [0x35#8, 0x30#8, 0x2E#8, 0x30#8], false, some ⟨false, 500#24, -1⟩, some [0x25#8], 0#12, noFlags⟩

/-! ## Well-formedness refuses an ill-formed term for each check -/

theorem test_wf_skip_refuses_ab : Instr.wf (.seek1Skip 0xAB#8) = false := by decide
theorem test_wf_miss_refuses_cd : Instr.wf (.seek2Miss 0xCD#8) = false := by decide
theorem test_wf_lenBad_refuses_2 : Instr.wf (.lenBad 0x02#8) = false := by decide
theorem test_wf_lenOk_refuses_1 : Instr.wf (.lenOk 0x01#8) = false := by decide
theorem test_wf_unit_refuses_empty : UnitEntry.wf ⟨nameACV, 0x30#8, []⟩ = false := by decide
theorem test_wf_unit_refuses_nine : UnitEntry.wf ⟨nameACV, 0x30#8, List.replicate 9 0x56#8⟩ = false := by decide
theorem test_wf_unit_refuses_half_character : UnitEntry.wf ⟨nameOHM, 0x30#8, [0xCE#8]⟩ = false := by decide
theorem test_wf_unit_refuses_continuation_byte : UnitEntry.wf ⟨nameOHM, 0x30#8, [0xA9#8, 0x56#8]⟩ = false := by decide
theorem test_wf_prefix_refuses_non_ascii : ExponentEntry.wf ⟨0xCE#8, 3⟩ = false := by decide
theorem test_wf_profile_F : Profile.wf F = true := by decide
theorem test_wf_profile_refuses_257_modes :
    Profile.wf ⟨List.replicate 257 nameACV, [], [], [], defaultStatusLayout⟩ = false := by
  unfold Profile.wf
  rw [List.length_replicate]
  rfl
theorem test_wf_profile_refuses_bad_unit :
    Profile.wf { F with units := [⟨nameACV, 0x30#8, []⟩] } = false := by decide
theorem test_wf_profile_refuses_bad_prefix :
    Profile.wf { F with exponentTable := [⟨0xCE#8, 3⟩] } = false := by decide
theorem test_wf_profile_refuses_two_units :
    Profile.wf { F with units := entries nameACV [0x30#8, 0x30#8] strV } = false := by decide
theorem test_wf_profile_refuses_two_exponents :
    Profile.wf { F with exponentTable := [⟨0x6D#8, -3⟩, ⟨0x6D#8, 3⟩] } = false := by decide

/-! ## Decoding words written out bit by bit (R74, R75: state in bits 9:8, byte in bits 7:0) -/

theorem test_word_seek1Hdr1 : decode .sample (.sync10 0b00_10101011#10) = .ok .seek1Hdr1 := rfl
theorem test_word_seek1Skip : decode .sample (.sync10 0b00_11001101#10) = .ok (.seek1Skip 0xCD#8) := rfl
theorem test_word_seek2Hdr2 : decode .sample (.sync10 0b01_11001101#10) = .ok .seek2Hdr2 := rfl
theorem test_word_seek2Miss : decode .sample (.sync10 0b01_10101011#10) = .ok (.seek2Miss 0xAB#8) := rfl
theorem test_word_lenBad : decode .sample (.sync10 0b10_00000001#10) = .ok (.lenBad 0x01#8) := rfl
theorem test_word_lenOk : decode .sample (.sync10 0b10_00000010#10) = .ok (.lenOk 0x02#8) := rfl
theorem test_word_payloadData :
    decode ⟨0#8, 3#8, 0x017B#16, 0#8⟩ (.sync10 0b11_01011111#10) = .ok (.payloadData 0x5F#8) := rfl
theorem test_word_payloadCkhi :
    decode ⟨1#8, 3#8, 0x01DA#16, 0#8⟩ (.sync10 0b11_00000001#10) = .ok (.payloadCkhi 0x01#8) := rfl
theorem test_word_payloadCkloOk :
    decode ⟨2#8, 3#8, 0x01DA#16, 1#8⟩ (.sync10 0b11_11011010#10) = .ok (.payloadCkloOk 0xDA#8) := rfl
theorem test_word_payloadCkloBad :
    decode ⟨2#8, 3#8, 0x01DA#16, 1#8⟩ (.sync10 0b11_11011011#10) = .ok (.payloadCkloBad 0xDB#8) := rfl
theorem test_code_clear : decode .sample .ctrlClear = .ok .clear := rfl
theorem test_code_reset : decode .sample .ctrlReset = .ok .reset := rfl
theorem test_code_decode : decode .sample (.decode payloadT1) = .ok (.decode payloadT1) := rfl

/-- In PAYLOAD with `cnt` = `n` (ruled out by R26) no row applies. -/
theorem test_word_noRow : decode ⟨3#8, 3#8, 0#16, 0#8⟩ (.sync10 0x300#10) = .error .noRow := rfl

/-- The host's numbers: a 10-bit word in two bytes; 1024 is no word. -/
theorem test_tableWord : decodeTableWord 16 0x200 = some (.lenBad 0x00#8) ∧ decodeTableWord 16 1024 = none := ⟨rfl, rfl⟩

/-- The word placed by `withFetchWord` is what the next step runs. -/
theorem test_fetchWord :
    step (State.reset.withFetchWord 16 0x0AB) = .next (mk .seek2 0x00AB#16 0#8 0#8 [])
      ∧ step (State.reset.withFetchWord 16 0x35F)
        = .next (mk .payload 0x005F#16 3#8 1#8 [(0, 0x5F#8)]) := ⟨rfl, rfl⟩

/-- The stream notation (R89). -/
theorem test_lines :
    Line.inputs [] (.feed [0xAB#8]) = some [.byte 0xAB#8]
      ∧ Line.inputs (framePayloads [.lengthError 0#8, .frame [0x5F#8] 1#8]) (.decodeFrame 1) = some [.decode [0x5F#8]]
      ∧ Line.inputs [] (.decodeFrame 1) = none := ⟨rfl, rfl, rfl⟩

/-! ## One step per operation: the vectors of 95_test_vectors.md §3.1 and §4 -/

/-- S2 -/
theorem test_seek1Hdr1_drops_old_sum :
    stepInput (.byte 0xAB#8) (mk .seek1 0x1234#16 0x10#8 5#8 []) = .next (mk .seek2 0x00AB#16 0x10#8 5#8 []) := rfl
/-- S4 -/
theorem test_seek1Skip : stepInput (.byte 0xCD#8) (mk .seek1 0#16 0#8 0#8 []) = .next (mk .seek1 0#16 0#8 0#8 []) := rfl
/-- S5 -/
theorem test_seek2Hdr2 :
    stepInput (.byte 0xCD#8) (mk .seek2 0x00AB#16 0#8 0#8 []) = .next (mk .len 0x0178#16 0#8 0#8 []) := rfl
/-- S6 -/
theorem test_seek2Miss :
    stepInput (.byte 0xAB#8) (mk .seek2 0x00AB#16 0#8 0#8 []) = .next (mk .seek1 0x00AB#16 0#8 0#8 []) := rfl
/-- S12 -/
theorem test_lenBad :
    stepInput (.byte 0x01#8) (mk .len 0x0178#16 0#8 0#8 [])
      = .next (emitted (mk .seek1 0x0178#16 0#8 0#8 []) (.lengthError 1#8) ⟨true, 2#2, 1#8, 0#16, 0#16⟩) := rfl
/-- S10 -/
theorem test_lenOk_largest :
    stepInput (.byte 0xFF#8) (mk .len 0x0178#16 0#8 0#8 []) = .next (mk .payload 0x0277#16 0xFF#8 0#8 []) := rfl
/-- S14 -/
theorem test_payloadData_header_byte :
    stepInput (.byte 0xAB#8) (mk .payload 0x017B#16 3#8 0#8 [])
      = .next (mk .payload 0x0226#16 3#8 1#8 [(0, 0xAB#8)]) := rfl
/-- S16 -/
theorem test_payloadCkhi_first_byte :
    stepInput (.byte 0x01#8) (mk .payload 0x017A#16 2#8 0#8 [])
      = .next (mk .payload 0x017A#16 2#8 1#8 [(0, 0x01#8)]) := rfl
/-- S17 -/
theorem test_payloadCkloOk :
    stepInput (.byte 0xDA#8) (mk .payload 0x01DA#16 3#8 2#8 [(0, 0x5F#8), (1, 0x01#8)])
      = .next (emitted (mk .seek1 0x01DA#16 3#8 3#8 [(0, 0x5F#8), (1, 0x01#8), (2, 0xDA#8)])
          (.frame [0x5F#8] 1#8) ⟨true, 0#2, 1#8, 0x01DA#16, 0x01DA#16⟩) := rfl
/-- S19 -/
theorem test_payloadCkloOk_empty :
    stepInput (.byte 0x7A#8) (mk .payload 0x017A#16 2#8 1#8 [(0, 0x01#8)])
      = .next (emitted (mk .seek1 0x017A#16 2#8 2#8 [(0, 0x01#8), (1, 0x7A#8)])
          (.frame [] 0#8) ⟨true, 0#2, 0#8, 0x017A#16, 0x017A#16⟩) := rfl
/-- S18 -/
theorem test_payloadCkloBad :
    stepInput (.byte 0xDB#8) (mk .payload 0x01DA#16 3#8 2#8 [(0, 0x5F#8), (1, 0x01#8)])
      = .next (emitted (mk .seek1 0x01DA#16 3#8 3#8 [(0, 0x5F#8), (1, 0x01#8), (2, 0xDB#8)])
          (.checksumError 0x01DB#16 0x01DA#16) ⟨true, 1#2, 0#8, 0x01DB#16, 0x01DA#16⟩) := rfl
/-- S20 -/
theorem test_clear :
    stepInput .clear (mk .payload 0x018B#16 0x10#8 2#8 [(0, 0x01#8), (1, 0x02#8)])
      = .next (mk .seek1 0x018B#16 0x10#8 2#8 [(0, 0x01#8), (1, 0x02#8)]) := rfl
/-- S22 -/
theorem test_reset :
    stepInput .reset (mk .payload 0x018B#16 0x10#8 5#8 [(0, 0x01#8)])
      = .next { mk .seek1 0x0000#16 0x00#8 0x00#8 [] with era := 1 } := rfl
/-- T27 -/
theorem test_decode_flags :
    stepInput (.decode payloadT27) loaded = .next { loaded with output := some (.decoded (.ok resultT27)) } := rfl
/-- T3 -/
theorem test_decode_overload_unit :
    stepInput (.decode payloadT3) loaded = .next { loaded with output := some (.decoded (.ok resultT3)) } := rfl

/-! ## Witnesses: states and operands that meet the hypotheses of each statement, clause by clause -/

/-- A PAYLOAD state of a frame with n = 3 whose next byte is data, its high checksum byte, its low one. -/
def inData : State := mk .payload 0x017B#16 3#8 0#8 []
def inCkHi : State := mk .payload 0x01DA#16 3#8 1#8 [(0, 0x5F#8)]
def inCkLo : State := mk .payload 0x01DA#16 3#8 2#8 [(0, 0x5F#8), (1, 0x01#8)]

theorem witness_inData_inv : inData.RegInv where
  payload_bounds := fun _ => by decide
  sum_in_data := fun _ _ => by decide
  sum_in_checksum := fun _ h => absurd h (by decide)
  sum_in_seek2 := fun h => by cases h
  sum_in_len := fun h => by cases h

theorem witness_inCkLo_inv : inCkLo.RegInv where
  payload_bounds := fun _ => by decide
  sum_in_data := fun _ h => absurd h (by decide)
  sum_in_checksum := fun _ _ => by decide
  sum_in_seek2 := fun h => by cases h
  sum_in_len := fun h => by cases h

theorem witness_seek2_inv : (mk .seek2 0x00AB#16 0#8 0#8 []).RegInv where
  payload_bounds := fun h => by cases h
  sum_in_data := fun h => by cases h
  sum_in_checksum := fun h => by cases h
  sum_in_seek2 := fun _ => rfl
  sum_in_len := fun h => by cases h

theorem witness_len_inv : (mk .len 0x0178#16 0#8 0#8 []).RegInv where
  payload_bounds := fun h => by cases h
  sum_in_data := fun h => by cases h
  sum_in_checksum := fun h => by cases h
  sum_in_seek2 := fun h => by cases h
  sum_in_len := fun _ => rfl

theorem witness_ResetSetsEveryRegister : (⟨true, true, true, 0xAB#8⟩ : Pins).rst = true := rfl

theorem witness_ClearReturnsToSeek1 :
    (⟨false, true, true, 0xAB#8⟩ : Pins).rst = false ∧ (⟨false, true, true, 0xAB#8⟩ : Pins).clear = true := ⟨rfl, rfl⟩

theorem witness_Hdr1LoadsSum : 0x0AB#10 &&& 0x3FF#10 = 0x0AB#10 := by decide

theorem witness_SkipDropsByte :
    0x00#8 ≠ 0xAB#8 ∧ 0xAA#8 ≠ 0xAB#8 ∧ 0xAC#8 ≠ 0xAB#8 ∧ 0xFF#8 ≠ 0xAB#8 ∧ State.reset.st = .seek1 := by decide

theorem witness_Hdr2EntersLen :
    0x1CD#10 &&& 0x3FF#10 = 0x1CD#10
      ∧ ∃ t, (mk .seek2 0x00AB#16 0#8 0#8 []).sum = 0x00AB#16
          ∧ exec .seek2Hdr2 (mk .seek2 0x00AB#16 0#8 0#8 []) = .next t := ⟨by decide, _, rfl, rfl⟩

theorem witness_MissConsumesByte :
    0x00#8 ≠ 0xCD#8 ∧ 0xAB#8 ≠ 0xCD#8 ∧ 0xFF#8 ≠ 0xCD#8 ∧ State.reset.st = .seek1 := by decide

theorem witness_LenOkStartsPayload : 2 ≤ (0x02#8).toNat ∧ 2 ≤ (0xFF#8).toNat := by decide

theorem witness_LenBadReportsLength :
    0x200#10 &&& 0x3FE#10 = 0x200#10 ∧ 0x201#10 &&& 0x3FE#10 = 0x200#10 := by decide

theorem witness_DataBuffersAndSums :
    (inData.rowCtx.cnt.toNat + 2 < inData.rowCtx.n.toNat)
      ∧ (⟨252#8, 255#8, 0#16, 0#8⟩ : RowCtx).cnt.toNat + 2 < (⟨252#8, 255#8, 0#16, 0#8⟩ : RowCtx).n.toNat
      ∧ (⟨0#8, 2#8, 0#16, 0#8⟩ : RowCtx).n = 2#8
      ∧ inData.cnt.toNat < 255 ∧ (mk .payload 0#16 255#8 254#8 []).cnt.toNat < 255 := by decide

theorem witness_CkhiBuffersWithoutSum :
    (⟨0#8, 2#8, 0#16, 0#8⟩ : RowCtx).cnt.toNat + 2 = (⟨0#8, 2#8, 0#16, 0#8⟩ : RowCtx).n.toNat
      ∧ (⟨253#8, 255#8, 0#16, 0#8⟩ : RowCtx).cnt.toNat + 2 = (⟨253#8, 255#8, 0#16, 0#8⟩ : RowCtx).n.toNat
      ∧ (⟨0#8, 2#8, 0#16, 0#8⟩ : RowCtx).n = 2#8 ∧ (⟨0#8, 2#8, 0#16, 0#8⟩ : RowCtx).cnt = 0#8
      ∧ inCkHi.cnt.toNat < 255 := by decide

theorem witness_CkloOkEmitsFrame :
    (2 ≤ inCkLo.n.toNat ∧ inCkLo.cnt.toNat + 1 = inCkLo.n.toNat
        ∧ inCkLo.sum.toNat = (inCkLo.bufRead (inCkLo.n.toNat - 2)).toNat * 256 + (0xDA#8).toNat)
      ∧ (mk .payload 0x017A#16 2#8 1#8 [(0, 0x01#8)]).n = 2#8
      ∧ (mk .payload 0x017A#16 2#8 1#8 [(0, 0x01#8)]).sum.toNat
          = ((mk .payload 0x017A#16 2#8 1#8 [(0, 0x01#8)]).bufRead 0).toNat * 256 + (0x7A#8).toNat
      ∧ (mk .payload 0xFE7A#16 255#8 254#8 fullBuf).cnt.toNat + 1 = 255
      ∧ (mk .payload 0xFE7A#16 255#8 254#8 fullBuf).sum.toNat
          = ((mk .payload 0xFE7A#16 255#8 254#8 fullBuf).bufRead 253).toNat * 256 + (0x7A#8).toNat :=
  ⟨⟨by decide, by decide, rfl⟩, rfl, rfl, rfl, rfl⟩

theorem witness_CkloBadReportsChecksum :
    2 ≤ inCkLo.n.toNat ∧ inCkLo.cnt.toNat + 1 = inCkLo.n.toNat
      ∧ inCkLo.sum.toNat ≠ (inCkLo.bufRead (inCkLo.n.toNat - 2)).toNat * 256 + (0xDB#8).toNat := by decide

theorem witness_DecodeAnswersWithProfile : loaded.profile = some F ∧ State.reset.profile = none := ⟨rfl, rfl⟩

theorem witness_NonStoringOpsKeepBuffer :
    ∀ i ∈ [.seek1Hdr1, .seek1Skip 0#8, .seek2Hdr2, .seek2Miss 0#8, .lenBad 0#8, .lenOk 2#8, .clear,
        Instr.decode payloadT1], ∃ t, exec i loaded = .next t := by
  simp only [List.mem_cons, List.not_mem_nil, or_false, forall_eq_or_imp, forall_eq]
  exact ⟨⟨_, rfl⟩, ⟨_, rfl⟩, ⟨_, rfl⟩, ⟨_, rfl⟩, ⟨_, rfl⟩, ⟨_, rfl⟩, ⟨_, rfl⟩, ⟨_, rfl⟩⟩

theorem witness_PayloadOpsStoreOneByte :
    (∃ t, exec (.payloadData 0x5F#8) inData = .next t) ∧ (∃ t, exec (.payloadCkhi 0x01#8) inCkHi = .next t)
      ∧ (∃ t, exec (.payloadCkloOk 0xDA#8) inCkLo = .next t)
      ∧ ∃ t, exec (.payloadCkloBad 0xDB#8) inCkLo = .next t := ⟨⟨_, rfl⟩, ⟨_, rfl⟩, ⟨_, rfl⟩, ⟨_, rfl⟩⟩

theorem witness_ProfileIsImmutable :
    (∃ t, exec .reset loaded = .next t) ∧ ∃ t, step (loaded.supply [.reset]) = .next t := ⟨⟨_, rfl⟩, ⟨_, rfl⟩⟩

theorem witness_OperationMapSelectsOneRow :
    (wordState 0x3AB#10 = .payload ∧ 2 ≤ (⟨0#8, 2#8, 0#16, 0#8⟩ : RowCtx).n.toNat
        ∧ (⟨0#8, 2#8, 0#16, 0#8⟩ : RowCtx).cnt.toNat + 1 ≤ (⟨0#8, 2#8, 0#16, 0#8⟩ : RowCtx).n.toNat)
      ∧ (⟨252#8, 255#8, 0#16, 0#8⟩ : RowCtx).cnt.toNat + 2 < (⟨252#8, 255#8, 0#16, 0#8⟩ : RowCtx).n.toNat
      ∧ (⟨253#8, 255#8, 0#16, 0#8⟩ : RowCtx).cnt.toNat + 2 = (⟨253#8, 255#8, 0#16, 0#8⟩ : RowCtx).n.toNat
      ∧ ((⟨1#8, 2#8, 0x017A#16, 1#8⟩ : RowCtx).cnt.toNat + 1 = (⟨1#8, 2#8, 0x017A#16, 1#8⟩ : RowCtx).n.toNat
        ∧ (⟨1#8, 2#8, 0x017A#16, 1#8⟩ : RowCtx).sum.toNat = (1#8).toNat * 256 + (0x7A#8).toNat)
      ∧ (⟨1#8, 2#8, 0x017A#16, 1#8⟩ : RowCtx).sum.toNat ≠ (1#8).toNat * 256 + (0x7B#8).toNat := by decide

theorem witness_DecodeInvertsEncode :
    (Instr.seek1Skip 0xCD#8).wf = true ∧ (Instr.seek1Skip 0xCD#8).applies .sample = true
      ∧ (Instr.lenOk 2#8).wf = true ∧ (Instr.lenOk 2#8).applies .sample = true
      ∧ (Instr.payloadData 0xAB#8).applies inData.rowCtx = true ∧ (Instr.payloadCkhi 1#8).applies inCkHi.rowCtx = true
      ∧ (Instr.payloadCkloOk 0xDA#8).applies inCkLo.rowCtx = true
      ∧ (Instr.payloadCkloBad 0xDB#8).applies inCkLo.rowCtx = true := by decide

theorem witness_EncodeInvertsDecode : ∃ i, decode inCkLo.rowCtx (.sync10 0x3DA#10) = .ok i := ⟨_, rfl⟩

theorem witness_CommandFramesAreValidFrames : State.reset.st = .seek1 := rfl

theorem witness_StepRunsDecodedInput :
    ((State.reset.supply [.byte 0xAB#8]).inputs = [.byte 0xAB#8]
        ∧ decode State.reset.rowCtx (Input.code .seek1 (.byte 0xAB#8)) = .ok .seek1Hdr1)
      ∧ (((mk .payload 0#16 0#8 0#8 []).supply [.byte 0#8]).inputs = [.byte 0#8]
        ∧ decode (mk .payload 0#16 0#8 0#8 []).rowCtx (Input.code .payload (.byte 0#8)) = .error .noRow)
      ∧ State.reset.inputs = [] := ⟨⟨rfl, rfl⟩, ⟨rfl, rfl⟩, rfl⟩

theorem witness_SteppingTheQueueIsRun :
    ∃ t es, run [.byte 0xAB#8, .byte 0xCD#8, .byte 0x01#8, .reset] State.reset = .next (t, es)
      ∧ es = [.lengthError 1#8] := ⟨_, _, rfl, rfl⟩

theorem witness_EveryInputHasASuccessor :
    inCkLo.RegInv ∧ (∀ p, Input.byte 0xDA#8 ≠ .decode p) ∧ (inCkLo.withProfile F).profile ≠ none :=
  ⟨witness_inCkLo_inv, by simp, by simp [State.withProfile]⟩

theorem witness_StepsStopOnlyWithoutProfile :
    inData.RegInv ∧ step (State.reset.supply [.decode []]) = .refused .profileNotLoaded := ⟨witness_inData_inv, rfl⟩

theorem witness_RegisterInvariantsKept :
    inData.RegInv ∧ ∃ t, step inData = .next t ∧ ∃ u, step (State.reset.supply [.byte 0xAB#8]) = .next u :=
  ⟨witness_inData_inv, _, rfl, _, rfl⟩

theorem witness_inCkLo_buf : inCkLo.BufInv where
  canonical := by decide
  written := fun _ => by decide

theorem witness_BufferInvariantKept :
    inCkLo.BufInv ∧ (∃ t, step (inCkLo.supply [.byte 0xDA#8]) = .next t) ∧ inCkLo.st = .payload
      ∧ 2 ≤ inCkLo.n.toNat ∧ inCkLo.cnt.toNat + 1 = inCkLo.n.toNat :=
  ⟨witness_inCkLo_buf, ⟨_, rfl⟩, rfl, by decide, by decide⟩

theorem witness_HiddenRegistersNeverShow :
    (((mk .seek1 0x1234#16 9#8 7#8 [(0, 1#8)]).supply [.byte 0xAB#8]).Alike (State.reset.supply [.byte 0xAB#8])
        ∧ ∃ t, step ((mk .seek1 0x1234#16 9#8 7#8 [(0, 1#8)]).supply [.byte 0xAB#8]) = .next t)
      ∧ (((mk .payload 0#16 0#8 0#8 [(9, 1#8)]).supply [.byte 0#8]).Alike
            ((mk .payload 0#16 0#8 0#8 []).supply [.byte 0#8])
        ∧ step ((mk .payload 0#16 0#8 0#8 [(9, 1#8)]).supply [.byte 0#8]) = .fault .noOperation)
      ∧ ((mk .seek1 1#16 0#8 0#8 []).supply [.decode []]).Alike (State.reset.supply [.decode []])
      ∧ step ((mk .seek1 1#16 0#8 0#8 []).supply [.decode []]) = .refused .profileNotLoaded :=
  ⟨⟨⟨rfl, rfl, rfl, rfl, rfl, trivial⟩, _, rfl⟩,
    ⟨⟨rfl, rfl, rfl, rfl, rfl, rfl, rfl, rfl, fun i h => absurd h (Nat.not_lt_zero i)⟩, rfl⟩,
    ⟨rfl, rfl, rfl, rfl, rfl, trivial⟩, rfl⟩

theorem witness_EventsComeFromTheirRows :
    (∃ t, exec (.payloadCkloOk 0xDA#8) inCkLo = .next t ∧ t.event? = some (.frame [0x5F#8] 1#8))
      ∧ (∃ t, exec (.payloadCkloBad 0xDB#8) inCkLo = .next t
          ∧ t.event? = some (.checksumError 0x01DB#16 0x01DA#16))
      ∧ ∃ t, exec (.lenBad 0#8) State.reset = .next t ∧ t.event? = some (.lengthError 0#8) :=
  ⟨⟨_, rfl, rfl⟩, ⟨_, rfl, rfl⟩, ⟨_, rfl, rfl⟩⟩

/-- Vectors V1, V4 and V9. -/
theorem witness_ValidFrameYieldsOneFrame :
    State.reset.st = .seek1
      ∧ (0x01#8).toNat * 256 + (0xDA#8).toNat = (0xAB + 0xCD + (1 + 2) + byteSum [0x5F#8]) % 2 ^ 16
      ∧ (0x01#8).toNat * 256 + (0x7A#8).toNat = (0xAB + 0xCD + (0 + 2) + byteSum []) % 2 ^ 16
      ∧ longest.length + 2 ≤ 255
      ∧ (0xFE#8).toNat * 256 + (0x7A#8).toNat
          = (0xAB + 0xCD + (253 + 2) + byteSum longest) % 2 ^ 16 :=
  ⟨rfl, rfl, rfl, by rw [longest_length], by rw [longest_sum]; rfl⟩

/-- Vectors V12 and V5, and V9 with its low checksum byte changed. -/
theorem witness_CorruptedFrameResynchronises :
    State.reset.st = .seek1
      ∧ (0x01#8).toNat * 256 + (0xD8#8).toNat ≠ (0xAB + 0xCD + (1 + 2) + byteSum [0x5E#8]) % 2 ^ 16
      ∧ (0x01#8).toNat * 256 + (0x7B#8).toNat ≠ (0xAB + 0xCD + (0 + 2) + byteSum []) % 2 ^ 16
      ∧ longest.length + 2 ≤ 255
      ∧ (0xFE#8).toNat * 256 + (0x7B#8).toNat
          ≠ (0xAB + 0xCD + (253 + 2) + byteSum longest) % 2 ^ 16 :=
  ⟨rfl, by decide, by decide, by rw [longest_length], by rw [longest_sum]; decide⟩

theorem witness_BackToBackFramesAllFound :
    State.reset.st = .seek1
      ∧ ∀ p ∈ [[0x5E#8], [], longest], p.length + 2 ≤ 255 := by
  simp only [List.mem_cons, List.not_mem_nil, or_false, forall_eq_or_imp, forall_eq, longest_length]
  decide

theorem witness_NoiseThenFrameFound :
    State.reset.st = .seek1 ∧ (∀ b ∈ [0x00#8, 0xFF#8], b ≠ 0xAB#8) ∧ [0x5E#8].length + 2 ≤ 255 := by decide

theorem witness_RunningSumNeverWraps :
    longest.length + 2 ≤ 255
      ∧ ((mk .seek2 0x00AB#16 0#8 0#8 []).RegInv ∧ (mk .seek2 0x00AB#16 0#8 0#8 []).st = .seek2)
      ∧ ((mk .len 0x0178#16 0#8 0#8 []).RegInv ∧ (mk .len 0x0178#16 0#8 0#8 []).st = .len)
      ∧ (inData.RegInv ∧ inData.st = .payload ∧ inData.cnt.toNat + 2 < inData.n.toNat)
      ∧ List.Perm [0x01#8, 0x02#8] [0x02#8, 0x01#8] :=
  ⟨by rw [longest_length], ⟨witness_seek2_inv, rfl⟩, ⟨witness_len_inv, rfl⟩, ⟨witness_inData_inv, rfl, by decide⟩,
    List.Perm.swap _ _ _⟩

theorem witness_BytesPerFrame :
    (mk .len 0x0178#16 0#8 0#8 []).st = .len
      ∧ (2 ≤ (2#8).toNat ∧ [0xAB#8, 0xCD#8].length = (2#8).toNat)
      ∧ (2 ≤ (255#8).toNat ∧ (List.replicate 255 0xAB#8).length = (255#8).toNat)
      ∧ (1#8).toNat < 2 := 
  ⟨rfl, ⟨by decide, rfl⟩, ⟨by decide, List.length_replicate⟩, by decide⟩

theorem witness_EveryPayloadByteIsData :
    (inData.RegInv ∧ inData.st = .payload ∧ inData.cnt.toNat + 1 < inData.n.toNat)
      ∧ inCkLo.RegInv ∧ inCkLo.st = .payload ∧ inCkLo.cnt.toNat + 1 = inCkLo.n.toNat :=
  ⟨⟨witness_inData_inv, rfl, by decide⟩, witness_inCkLo_inv, rfl, by decide⟩

/-- Vector V7. -/
theorem witness_StrayHeaderByteMissesFrame :
    State.reset.st = .seek1 ∧ ∀ b ∈ [0x03#8, 0x5F#8, 0x01#8, 0xDA#8], b ≠ 0xAB#8 := by decide

theorem witness_TruncatedFrameWaits :
    inData.RegInv ∧ inData.st = .payload ∧ inData.cnt.toNat + [0x5F#8, 0x01#8].length < inData.n.toNat :=
  ⟨witness_inData_inv, rfl, by decide⟩

theorem witness_ChecksumMissesReordering :
    State.reset.st = .seek1 ∧ [0x01#8, 0x02#8].length + 2 ≤ 255
      ∧ [0x00#8, 0x03#8].length = [0x01#8, 0x02#8].length ∧ byteSum [0x00#8, 0x03#8] = byteSum [0x01#8, 0x02#8]
      ∧ List.Perm [0x01#8, 0x02#8] [0x02#8, 0x01#8] :=
  ⟨rfl, by decide, rfl, rfl, List.Perm.swap _ _ _⟩

theorem witness_PortPriority :
    (⟨true, true, true, 0#8⟩ : Pins).rst = true
      ∧ ((⟨false, true, true, 0#8⟩ : Pins).rst = false ∧ (⟨false, true, true, 0#8⟩ : Pins).clear = true)
      ∧ ((⟨false, false, true, 0#8⟩ : Pins).clear = false ∧ (⟨false, false, true, 0#8⟩ : Pins).inValid = true)
      ∧ (⟨false, false, false, 0#8⟩ : Pins).inValid = false := by decide

theorem witness_PortsCarryTheEvent :
    (∃ t, portCycle ⟨false, false, true, 0xDA#8⟩ inCkLo = .next t ∧ t.event? = some (.frame [0x5F#8] 1#8))
      ∧ (∃ t, portCycle ⟨false, false, true, 0xDB#8⟩ inCkLo = .next t
          ∧ t.event? = some (.checksumError 0x01DB#16 0x01DA#16))
      ∧ (∃ t, portCycle ⟨false, false, true, 0x01#8⟩ (mk .len 0x0178#16 0#8 0#8 []) = .next t
          ∧ t.event? = some (.lengthError 1#8))
      ∧ ∃ t, portCycle ⟨false, false, false, 0x01#8⟩ inCkLo = .next t ∧ t.event? = none :=
  ⟨⟨_, rfl, rfl⟩, ⟨_, rfl, rfl⟩, ⟨_, rfl, rfl⟩, ⟨_, rfl, rfl⟩⟩

theorem witness_BufferKeptForThreeBytes :
    State.reset.st = .seek1 ∧ [0xAB#8, 0xCD#8, 0x02#8].length ≤ 3
      ∧ (∃ t es, run (feed [0xAB#8, 0xCD#8, 0x02#8]) State.reset = .next (t, es))
      ∧ 2 ≤ (0x02#8).toNat := ⟨rfl, by decide, ⟨_, _, rfl⟩, by decide⟩

theorem witness_MeasurementFrameDecodes :
    loaded.st = .seek1 ∧ loaded.profile = some F ∧ 14 ≤ payloadT1.length ∧ payloadT1.length + 2 ≤ 255
      ∧ longest.length + 2 ≤ 255 ∧ [0xAB#8, 0xCD#8, 0x02#8].length ≤ 3 :=
  ⟨rfl, rfl, by decide, by decide, by rw [longest_length], by decide⟩

/-- Check Q2: the same payload in two states of the synchronizer. -/
theorem witness_DecodeIsPure :
    loaded.profile = (inCkLo.withProfile F).profile ∧ ∃ t, exec (.decode payloadT1) loaded = .next t := ⟨rfl, _, rfl⟩

/-- Vectors T34, T5, T9 and T6: each error occurs, and UNKNOWN_MODE wins over a bad display. -/
theorem witness_DecodeErrorsInStepOrder :
    decodePayload F (payloadT1.take 13) = .err .shortPayload
      ∧ decodePayload F [0xFF#8, 0x30#8, 0x20#8, 0x20#8, 0x31#8, 0x2E#8, 0x32#8, 0x2E#8, 0x33#8, 0#8, 0#8, 0#8, 0#8, 0#8]
        = .err .unknownMode
      ∧ decodePayload F [0x02#8, 0x30#8, 0x20#8, 0x20#8, 0x35#8, 0x2E#8, 0x35#8, 0x80#8, 0x34#8, 0#8, 0#8, 0#8, 0#8, 0#8]
        = .err .badDisplay
      ∧ decodePayload F [0x02#8, 0x30#8, 0x20#8, 0x20#8, 0x31#8, 0x2E#8, 0x32#8, 0x2E#8, 0x33#8, 0#8, 0#8, 0#8, 0#8, 0#8]
        = .err .badDisplay := ⟨rfl, rfl, rfl, rfl⟩

/-- Vectors T1, T2, T10, T27 and T33: payloads that are decoded, with the five shapes of result. -/
theorem witness_decodes :
    decodePayload F payloadT1 = .ok resultT1 ∧ decodePayload F payloadT2 = .ok resultT2
      ∧ decodePayload F payloadT10 = .ok resultT10 ∧ decodePayload F payloadT27 = .ok resultT27
      ∧ decodePayload F payloadT33 = .ok resultT33 := ⟨rfl, rfl, rfl, rfl, rfl⟩

theorem witness_DecodeIsTotal : ∃ m, decodePayload F payloadT1 = .ok m := ⟨_, witness_decodes.1⟩

/-- T14's progress bytes: 0xFF 0xFF gives 2805, the upper end. -/
theorem witness_PlainFieldsComeFromTheirBytes :
    (∃ m, decodePayload F payloadT1 = .ok m) ∧ progressOf 0xFF#8 0xFF#8 = 2805#12 := ⟨⟨_, witness_decodes.1⟩, rfl⟩

/-- Vector T2, and a display that is no marker. -/
theorem witness_OverloadMakesNoValue :
    (14 ≤ payloadT2.length ∧ (payloadT2.headD 0#8).toNat < F.modes.length
        ∧ (∀ c ∈ (payloadT2.drop 2).take 7, c.toNat < 0x80)
        ∧ ((payloadT2.drop 2).take 7).filter (· ≠ 0x20#8) ∈ F.overloadMarkers)
      ∧ (decodePayload F payloadT2 = .ok resultT2 ∧ resultT2.isOverload = true)
      ∧ decodePayload F payloadT1 = .ok resultT1 ∧ resultT1.isOverload = false :=
  ⟨by decide, ⟨witness_decodes.2.1, rfl⟩, witness_decodes.1, rfl⟩

/-- "5.54", "-0.000" and "+5.0" parse; the empty text, "1.2.3" and "1e3" do not (R146). -/
theorem witness_ParseAcceptsTheGrammar :
    parseDecimal [0x35#8, 0x2E#8, 0x35#8, 0x34#8] = some ⟨false, 554#24, -2⟩
      ∧ parseDecimal [0x2D#8, 0x30#8, 0x2E#8, 0x30#8, 0x30#8, 0x30#8] = some ⟨true, 0#24, -3⟩
      ∧ parseDecimal [0x2B#8, 0x35#8, 0x2E#8, 0x30#8] = some ⟨false, 50#24, -1⟩
      ∧ parseDecimal [] = none ∧ parseDecimal [0x31#8, 0x2E#8, 0x32#8, 0x2E#8, 0x33#8] = none
      ∧ parseDecimal [0x31#8, 0x65#8, 0x33#8] = none := by decide

/-- Vectors T10 (no unit), T1 (a prefix) and T33 (no prefix). -/
theorem witness_UnitAndValueNormalised :
    (decodePayload F payloadT10 = .ok resultT10 ∧ unitOf F nameDCV 0x39#8 = none ∧ resultT10.isOverload = false)
      ∧ (decodePayload F payloadT1 = .ok resultT1 ∧ unitOf F nameACmV 0x30#8 = some (0x6D#8 :: strV)
        ∧ exponentOf F 0x6D#8 = some (-3) ∧ resultT1.isOverload = false)
      ∧ decodePayload F payloadT33 = .ok resultT33 ∧ unitOf F namePct 0x30#8 = some [0x25#8]
      ∧ exponentOf F 0x25#8 = none ∧ resultT33.isOverload = false :=
  ⟨⟨witness_decodes.2.2.1, by decide, rfl⟩, ⟨witness_decodes.1, by decide, by decide, rfl⟩,
    witness_decodes.2.2.2.2, by decide, by decide, rfl⟩

theorem witness_StatusFlagsReadTheirBits :
    decodePayload F payloadT27 = .ok resultT27 ∧ F.statusLayout = defaultStatusLayout :=
  ⟨witness_decodes.2.2.2.1, rfl⟩

/-- Seven digits (T15), six of them fraction digits at most; a value under the default exponents. -/
theorem witness_NumericLaws :
    ([0x31#8, 0x32#8, 0x33#8, 0x34#8, 0x35#8, 0x36#8, 0x37#8].length ≤ 7
        ∧ parseDecimal [0x31#8, 0x32#8, 0x33#8, 0x34#8, 0x35#8, 0x36#8, 0x37#8] = some ⟨false, 1234567#24, 0⟩
        ∧ parseDecimal (0x2E#8 :: List.replicate 6 0x39#8) = some ⟨false, 999999#24, -6⟩)
      ∧ decodePayload F payloadT1 = .ok resultT1 ∧ resultT1.value = some ⟨false, 554#24, -5⟩
      ∧ F.exponentTable = defaultExponentTable := ⟨by decide, witness_decodes.1, rfl, rfl⟩

theorem witness_OptionalFieldsOfTheRecord :
    decodePayload F payloadT1 = .ok resultT1 ∧ F.wf = true ∧ resultT1.unit = some strV :=
  ⟨witness_decodes.1, test_wf_profile_F, rfl⟩

/-- "5.0" and "5.00" are one number, "+0" and "-0" too, "5" and "6" are not. -/
theorem witness_ValueEqualityIsNumeric :
    (⟨false, 50#24, -1⟩ : Decimal).sameNumber ⟨false, 500#24, -2⟩ = true
      ∧ (⟨false, 0#24, 0⟩ : Decimal).sameNumber ⟨true, 0#24, -3⟩ = true
      ∧ (⟨false, 5#24, 0⟩ : Decimal).sameNumber ⟨false, 6#24, 0⟩ = false := by decide

theorem witness_F_meets_source : MeetsSource F where
  acmv := ⟨1#8, rfl⟩
  acmv_unit := rfl
  ohm := ⟨6#8, rfl⟩
  ohm_unit := ⟨0x30#8, rfl⟩

theorem witness_SourceExampleMillivolts :
    MeetsSource F ∧ modeName F 1#8 = some nameACmV ∧ exponentOf F 0x6D#8 = some (-3)
      ∧ [0x35#8, 0x2E#8, 0x35#8, 0x34#8] ∉ F.overloadMarkers ∧ 5 ≤ (List.replicate 5 0x00#8).length :=
  ⟨witness_F_meets_source, rfl, rfl, by decide, by decide⟩

theorem witness_DefaultMarkersAreOverload :
    F.overloadMarkers = defaultOverloadMarkers ∧ [0x4F#8, 0x4C#8] ∈ defaultOverloadMarkers
      ∧ (0x02#8).toNat < F.modes.length ∧ 5 ≤ (List.replicate 5 0x00#8).length := ⟨rfl, by decide, by decide, by decide⟩

theorem witness_ProfileTablesAreReadByKey :
    (F.wf = true ∧ ⟨nameACmV, 0x30#8, strMV⟩ ∈ F.units ∧ ⟨0x6D#8, -3⟩ ∈ F.exponentTable)
      ∧ (∀ e ∈ F.units, e.mode = nameDCV → e.range ≠ 0x39#8) ∧ (∀ e ∈ F.exponentTable, e.byte ≠ 0x56#8)
      ∧ F.exponentTable = defaultExponentTable := ⟨⟨test_wf_profile_F, by decide, by decide⟩, by decide, by decide, rfl⟩

end Sys2Proof.Tests
end

section
/-! The step layer: what taking an input can do, as an inductive relation with one named case for each shape of a
step that answers, and the induction principle of invariants that follows from it. -/

namespace Sys2Proof.Machine

/-- What an input that is taken does to the state: the nine shapes of a byte step (40_frame_sync.md R101 to R110),
CLEAR, RESET and DECODE. -/
inductive Took (s : State) : Input → State → Prop where
  | hdr1 (hst : s.st = .seek1) : Took s (.byte 0xAB#8) { s.quiet with st := .seek2, sum := 0x00AB#16 }
  | skip (b : Byte) (hst : s.st = .seek1) : Took s (.byte b) s.quiet
  | hdr2 (hst : s.st = .seek2) : Took s (.byte 0xCD#8) { s.quiet with st := .len, sum := addSum s.sum 0xCD#8 }
  | miss (b : Byte) (hst : s.st = .seek2) : Took s (.byte b) { s.quiet with st := .seek1 }
  | lenBad (b : Byte) (hst : s.st = .len) (hb : b.toNat < 2) : Took s (.byte b) (s.report (.lengthError b) 0#16)
  | lenOk (b : Byte) (hst : s.st = .len) (hb : 2 ≤ b.toNat) :
      Took s (.byte b) { s.quiet with n := b, cnt := 0#8, sum := addSum s.sum b, st := .payload }
  | data (b : Byte) (hst : s.st = .payload) (hc : s.cnt.toNat + 2 < s.n.toNat) :
      Took s (.byte b) { (s.pushed b).quiet with sum := addSum s.sum b }
  | ckHi (b : Byte) (hst : s.st = .payload) (hc : s.cnt.toNat + 2 = s.n.toNat) :
      Took s (.byte b) (s.pushed b).quiet
  | ckLo (b : Byte) (hst : s.st = .payload) (hn : 2 ≤ s.n.toNat) (hc : s.cnt.toNat + 1 = s.n.toNat) :
      Took s (.byte b) ((s.pushed b).report
        (if s.sum = be16 (s.bufRead (s.n.toNat - 2)) b then .frame (s.bufBytes (s.n.toNat - 2)) (s.n - 2#8)
          else .checksumError (be16 (s.bufRead (s.n.toNat - 2)) b) s.sum)
        (be16 (s.bufRead (s.n.toNat - 2)) b))
  | clear : Took s .clear { s.quiet with st := .seek1 }
  | reset : Took s .reset
      { s.quiet with st := .seek1, sum := 0x0000#16, n := 0x00#8, cnt := 0x00#8, buf := [], era := s.era + 1 }
  | decode (p : ByteString) (P : Profile) (hP : s.profile = some P) :
      Took s (.decode p) (s.answer (decodePayload P p))

/-- Taking an input that answers is one of these cases. -/
theorem took_of_stepInput {i : Input} {s t : State} (h : stepInput i s = .next t) : Took s i t := by
  cases i with
  | byte b =>
    rcases stepInput_byte_inv h with ⟨hst, rfl, rfl⟩ | ⟨hst, -, rfl⟩ | ⟨hst, rfl, rfl⟩ | ⟨hst, -, rfl⟩
      | ⟨hst, hb, rfl⟩ | ⟨hst, hb, rfl⟩ | ⟨hst, hc, rfl⟩ | ⟨hst, hc, rfl⟩ | ⟨hst, hn, hc, rfl⟩
    · exact .hdr1 hst
    · exact .skip b hst
    · exact .hdr2 hst
    · exact .miss b hst
    · exact .lenBad b hst hb
    · exact .lenOk b hst hb
    · exact .data b hst hc
    · exact .ckHi b hst hc
    · exact .ckLo b hst hn hc
  | clear =>
    cases h
    exact .clear
  | reset =>
    cases h
    exact .reset
  | decode p =>
    obtain ⟨P, hP, rfl⟩ := execDecode_next h
    exact .decode p P hP

/-- Everything a step can do: idle, or take the oldest pending input. -/
theorem step_next_cases {s t : State} (h : step s = .next t) :
    (s.inputs = [] ∧ t = s.quiet)
      ∨ ∃ i rest, s.inputs = i :: rest ∧ stepInput i { s with inputs := rest } = .next t := by
  cases hin : s.inputs with
  | nil =>
    rw [step_idle hin] at h
    exact .inl ⟨rfl, (Host.Outcome.next.inj h).symm⟩
  | cons i rest =>
    rw [step_cons hin] at h
    exact .inr ⟨i, rest, rfl, h⟩

/-- The synchronizer's registers and buffer (10_state.md R20) are those of `s`. -/
structure SameSync (s t : State) : Prop where
  st : t.st = s.st
  sum : t.sum = s.sum
  n : t.n = s.n
  cnt : t.cnt = s.cnt
  buf : t.buf = s.buf
  era : t.era = s.era

theorem sameSync_quiet (s : State) : SameSync s s.quiet := ⟨rfl, rfl, rfl, rfl, rfl, rfl⟩
theorem sameSync_answer (r : DecodeResult) (s : State) : SameSync s (s.answer r) := ⟨rfl, rfl, rfl, rfl, rfl, rfl⟩
theorem sameSync_setInputs (s : State) (is : List Input) : SameSync s { s with inputs := is } :=
  ⟨rfl, rfl, rfl, rfl, rfl, rfl⟩

/-- A predicate over the synchronizer that every taken input keeps is kept by every step. -/
theorem step_keeps {Inv : State → Prop} (congr : ∀ {s t : State}, SameSync s t → Inv s → Inv t)
    (took : ∀ {s t : State} {i : Input}, Inv s → Took s i t → Inv t) {s t : State} (hs : Inv s)
    (h : step s = .next t) : Inv t := by
  rcases step_next_cases h with ⟨-, rfl⟩ | ⟨i, rest, -, ht⟩
  · exact congr (sameSync_quiet s) hs
  · exact took (congr (sameSync_setInputs s rest) hs) (took_of_stepInput ht)

end Sys2Proof.Machine
end

section
/-! The register invariants (a) to (e) of 10_state.md R26. -/

namespace Sys2Proof.Machine

theorem SameSync.bufSum {s t : State} (e : SameSync s t) (k : Nat) : t.bufSum k = s.bufSum k := by
  unfold State.bufSum
  rw [bufBytes_congr fun i _ => bufRead_congr e.buf e.era i]

/-- The invariants speak of the synchronizer alone. -/
theorem State.RegInv.congr {s t : State} (e : SameSync s t) (h : s.RegInv) : t.RegInv where
  payload_bounds := by
    rw [e.st, e.n, e.cnt]
    exact h.payload_bounds
  sum_in_data := by
    rw [e.st, e.n, e.cnt, e.sum, e.bufSum]
    exact h.sum_in_data
  sum_in_checksum := by
    rw [e.st, e.n, e.cnt, e.sum, e.bufSum]
    exact h.sum_in_checksum
  sum_in_seek2 := by
    rw [e.st, e.sum]
    exact h.sum_in_seek2
  sum_in_len := by
    rw [e.st, e.sum]
    exact h.sum_in_len

/-- In SEEK1 nothing is asked of the registers. -/
theorem regInv_of_seek1 {s : State} (h : s.st = .seek1) : s.RegInv := by
  constructor <;> simp [h]

theorem regInv_of_seek2 {s : State} (h : s.st = .seek2) (hsum : s.sum = 0x00AB#16) : s.RegInv := by
  constructor <;> simp [h, hsum]

theorem regInv_of_len {s : State} (h : s.st = .len) (hsum : s.sum = 0x0178#16) : s.RegInv := by
  constructor <;> simp [h, hsum]

/-- In PAYLOAD before the checksum, (a) and (b) are all of R26. -/
theorem regInv_of_data {s : State} (h : s.st = .payload) (hc : s.cnt.toNat + 2 ≤ s.n.toNat)
    (hsum : s.sum.toNat = (0xAB + 0xCD + s.n.toNat + s.bufSum s.cnt.toNat) % 2 ^ 16) : s.RegInv where
  payload_bounds _ := by
    have := s.n.isLt
    omega
  sum_in_data _ _ := hsum
  sum_in_checksum _ h1 := by omega
  sum_in_seek2 h1 := by simp [h] at h1
  sum_in_len h1 := by simp [h] at h1

/-- In PAYLOAD before the last byte, (a) and (c) are all of R26. -/
theorem regInv_of_lastByte {s : State} (h : s.st = .payload) (hn : 2 ≤ s.n.toNat) (hc : s.cnt.toNat + 1 = s.n.toNat)
    (hsum : s.sum.toNat = (0xAB + 0xCD + s.n.toNat + s.bufSum (s.n.toNat - 2)) % 2 ^ 16) : s.RegInv where
  payload_bounds _ := by
    have := s.n.isLt
    omega
  sum_in_data _ h1 := by omega
  sum_in_checksum _ _ := hsum
  sum_in_seek2 h1 := by simp [h] at h1
  sum_in_len h1 := by simp [h] at h1

/-- Storing a byte at `cnt` adds it to the sum of the bytes below the counter. -/
theorem bufSum_write_succ {s t : State} {b : Byte} (h : t.buf = s.buf.write s.cnt.toNat b) (he : t.era = s.era) :
    t.bufSum (s.cnt.toNat + 1) = s.bufSum s.cnt.toNat + b.toNat := by
  unfold State.bufSum
  rw [bufBytes_write_succ h he, byteSum_append, byteSum_cons, byteSum_nil, Nat.add_zero]

/-- R26, (a) to (e), for one taken input. -/
theorem took_keeps_regInv {s t : State} {i : Input} (h : s.RegInv) (ht : Took s i t) : t.RegInv := by
  cases ht with
  | hdr1 hst => exact regInv_of_seek2 rfl rfl
  | skip b hst => exact h.congr (sameSync_quiet s)
  | hdr2 hst => exact regInv_of_len rfl (by rw [h.sum_in_seek2 hst]; rfl)
  | lenOk b hst hb =>
    refine regInv_of_data rfl (show 0 + 2 ≤ b.toNat by omega) ?_
    show (addSum s.sum b).toNat = (0xAB + 0xCD + b.toNat + 0) % 2 ^ 16
    rw [h.sum_in_len hst, addSum_toNat]
    rfl
  | data b hst hc =>
    have hn := s.n.isLt
    have hcnt : (s.pushed b).cnt.toNat = s.cnt.toNat + 1 := pushed_cnt_toNat b (by omega)
    have hbuf := bufSum_write_succ (s := s) (t := { (s.pushed b).quiet with sum := addSum s.sum b }) (b := b) rfl rfl
    refine regInv_of_data hst (show (s.pushed b).cnt.toNat + 2 ≤ s.n.toNat by omega) ?_
    show (addSum s.sum b).toNat = (0xAB + 0xCD + s.n.toNat + State.bufSum _ (s.pushed b).cnt.toNat) % 2 ^ 16
    rw [hcnt, hbuf, addSum_toNat, h.sum_in_data hst (by omega)]
    omega
  | ckHi b hst hc =>
    have hn := s.n.isLt
    have hcnt : (s.pushed b).cnt.toNat = s.cnt.toNat + 1 := pushed_cnt_toNat b (by omega)
    have hbuf : State.bufBytes (s.pushed b).quiet s.cnt.toNat = s.bufBytes s.cnt.toNat :=
      bufBytes_write (pushed_buf b s) rfl (Nat.le_refl _)
    refine regInv_of_lastByte hst (show 2 ≤ s.n.toNat by omega)
      (show (s.pushed b).cnt.toNat + 1 = s.n.toNat by omega) ?_
    show s.sum.toNat = (0xAB + 0xCD + s.n.toNat + byteSum (State.bufBytes (s.pushed b).quiet (s.n.toNat - 2))) % 2 ^ 16
    rw [← hc, Nat.add_sub_cancel, hbuf, hc]
    exact h.sum_in_data hst (by omega)
  | decode p P hP => exact h.congr (sameSync_answer _ s)
  | miss | lenBad | ckLo | clear | reset => exact regInv_of_seek1 rfl

end Sys2Proof.Machine

namespace Sys2Proof.Proofs

open Sys2Proof.Machine

/-- Settles O28: the invariants ask nothing of the reset state, which is in SEEK1, and every shape of a step keeps
them. -/
theorem registerInvariantsKept : Obligations.RegisterInvariantsKept :=
  ⟨regInv_of_seek1 rfl, fun _ _ hs h => step_keeps State.RegInv.congr took_keeps_regInv hs h⟩

end Sys2Proof.Proofs
end

section
/-! States a host cannot tell apart (10_state.md R25, R38) step alike. -/

namespace Sys2Proof.Machine

theorem sameRegs_of_seek1 {s t : State} (h : s.st = .seek1) : s.sameRegs t := by
  simp [State.sameRegs, h]

theorem sameRegs_seek2 {s t : State} (h : s.st = .seek2) : s.sameRegs t ↔ s.sum = t.sum := by
  simp [State.sameRegs, h]

theorem sameRegs_len {s t : State} (h : s.st = .len) : s.sameRegs t ↔ s.sum = t.sum := by
  simp [State.sameRegs, h]

theorem sameRegs_payload {s t : State} (h : s.st = .payload) :
    s.sameRegs t ↔ s.sum = t.sum ∧ s.n = t.n ∧ s.cnt = t.cnt ∧ ∀ i, i < s.cnt.toNat → s.bufRead i = t.bufRead i := by
  simp [State.sameRegs, h]

/-- Readable registers stay readable as long as the synchronizer is untouched. -/
theorem sameRegs_congr {s t s' t' : State} (es : SameSync s s') (et : SameSync t t') (h : s.sameRegs t) :
    s'.sameRegs t' := by
  simpa only [State.sameRegs, es.st, es.sum, es.n, es.cnt, et.sum, et.n, et.cnt, bufRead_congr es.buf es.era,
    bufRead_congr et.buf et.era] using h

/-- Storing one byte at the shared counter keeps the bytes below the counter equal. -/
theorem pushed_sameBytes {s t : State} (b : Byte) (hlt : s.cnt.toNat < 255) (hcnt : s.cnt = t.cnt)
    (h : ∀ i, i < s.cnt.toNat → s.bufRead i = t.bufRead i) (i : Nat) (hi : i < (s.pushed b).cnt.toNat) :
    (s.pushed b).bufRead i = (t.pushed b).bufRead i := by
  rw [pushed_cnt_toNat b hlt] at hi
  by_cases he : i = s.cnt.toNat
  · have hs : (s.pushed b).bufRead i = b := by
      rw [he]
      exact bufRead_write_same (pushed_buf b s)
    have ht : (t.pushed b).bufRead i = b := by
      rw [he, hcnt]
      exact bufRead_write_same (pushed_buf b t)
    rw [hs, ht]
  · rw [bufRead_write_other (pushed_buf b s) rfl he, bufRead_write_other (pushed_buf b t) rfl (hcnt ▸ he)]
    exact h i (by omega)

/-- Two outcomes alike: next states that cannot be told apart, or the same stop. -/
inductive AlikeOutcome : Host.Outcome State Fault Refusal → Host.Outcome State Fault Refusal → Prop where
  | next {s t : State} (h : s.Alike t) : AlikeOutcome (.next s) (.next t)
  | fault (r : Fault) : AlikeOutcome (.fault r) (.fault r)
  | refused (r : Refusal) : AlikeOutcome (.refused r) (.refused r)

/-- A byte of a payload or its checksum, in two PAYLOAD states alike (R107 to R110, and the stops outside R26). -/
theorem stepInput_payload_alike {s t : State} (hs : s.st = .payload) (h : s.Alike t) (b : Byte) :
    AlikeOutcome (stepInput (.byte b) s) (stepInput (.byte b) t) := by
  obtain ⟨hst, hprof, hin, -, -, hregs⟩ := h
  obtain ⟨hsum, hn, hcnt, hbytes⟩ := (sameRegs_payload hs).mp hregs
  have ht : t.st = .payload := hst ▸ hs
  have hlt := s.n.isLt
  have hn' : s.n.toNat = t.n.toNat := congrArg BitVec.toNat hn
  have hcnt' : s.cnt.toNat = t.cnt.toNat := congrArg BitVec.toNat hcnt
  rcases Nat.lt_trichotomy (s.cnt.toNat + 2) s.n.toNat with hc | hc | hc
  · rw [stepInput_data hs hc, stepInput_data ht (by omega)]
    refine .next ⟨hst, hprof, hin, rfl, rfl, (sameRegs_payload (by exact hs)).mpr ⟨?_, hn, ?_, ?_⟩⟩
    · show addSum s.sum b = addSum t.sum b
      rw [hsum]
    · show s.cnt + 1#8 = t.cnt + 1#8
      rw [hcnt]
    · exact pushed_sameBytes b (by omega) hcnt hbytes
  · rw [stepInput_ckHi hs hc, stepInput_ckHi ht (by omega)]
    refine .next ⟨hst, hprof, hin, rfl, rfl, (sameRegs_payload (by exact hs)).mpr ⟨hsum, hn, ?_, ?_⟩⟩
    · show s.cnt + 1#8 = t.cnt + 1#8
      rw [hcnt]
    · exact pushed_sameBytes b (by omega) hcnt hbytes
  · by_cases hlast : s.cnt.toNat + 1 = s.n.toNat
    · by_cases h2 : 2 ≤ s.n.toNat
      · have hck : s.bufRead (s.n.toNat - 2) = t.bufRead (s.n.toNat - 2) := hbytes _ (by omega)
        have hpl : s.bufBytes (s.n.toNat - 2) = t.bufBytes (s.n.toNat - 2) :=
          bufBytes_congr fun i hi => hbytes i (by omega)
        rw [stepInput_ckLo hs h2 hlast, stepInput_ckLo ht (by omega) (by omega), ← hn, ← hck,
          ← hpl, ← hsum]
        refine .next ⟨rfl, hprof, hin, rfl, ?_, sameRegs_of_seek1 rfl⟩
        simp only [report_ports, pushed_sum, hsum]
      · rw [stepInput_shortN hs (by omega) hlast,
          stepInput_shortN ht (by omega) (by omega)]
        exact .fault _
    · rw [stepInput_noRow hs (by omega), stepInput_noRow ht (by omega)]
      exact .fault _

/-- A byte, in two states alike: it is taken in the same way in both. -/
theorem stepInput_byte_alike {s t : State} (h : s.Alike t) (b : Byte) :
    AlikeOutcome (stepInput (.byte b) s) (stepInput (.byte b) t) := by
  have ⟨hst, hprof, hin, _, _, hregs⟩ := h
  cases hs : s.st with
  | seek1 =>
    rw [stepInput_seek1 hs, stepInput_seek1 (hst ▸ hs)]
    split
    · exact .next ⟨rfl, hprof, hin, rfl, rfl, (sameRegs_seek2 rfl).mpr rfl⟩
    · exact .next ⟨hst, hprof, hin, rfl, rfl, sameRegs_of_seek1 hs⟩
  | seek2 =>
    have hsum := (sameRegs_seek2 hs).mp hregs
    rw [stepInput_seek2 hs, stepInput_seek2 (hst ▸ hs), hsum]
    split
    · exact .next ⟨rfl, hprof, hin, rfl, rfl, (sameRegs_len rfl).mpr rfl⟩
    · exact .next ⟨rfl, hprof, hin, rfl, rfl, sameRegs_of_seek1 rfl⟩
  | len =>
    have hsum := (sameRegs_len hs).mp hregs
    rw [stepInput_len hs, stepInput_len (hst ▸ hs), hsum]
    split
    · exact .next ⟨rfl, hprof, hin, rfl, rfl, sameRegs_of_seek1 rfl⟩
    · exact .next ⟨rfl, hprof, hin, rfl, rfl,
        (sameRegs_payload rfl).mpr ⟨rfl, rfl, rfl, fun i hi => absurd hi (Nat.not_lt_zero i)⟩⟩
  | payload => exact stepInput_payload_alike hs h b

/-- An input, in two states alike. RESET renews the free value of unlisted bytes, which SEEK1 does not show. -/
theorem stepInput_alike {s t : State} (h : s.Alike t) (i : Input) :
    AlikeOutcome (stepInput i s) (stepInput i t) := by
  have ⟨hst, hprof, hin, _, hports, hregs⟩ := h
  cases i with
  | byte b => exact stepInput_byte_alike h b
  | clear => exact .next ⟨rfl, hprof, hin, rfl, rfl, sameRegs_of_seek1 rfl⟩
  | reset => exact .next ⟨rfl, hprof, hin, rfl, rfl, sameRegs_of_seek1 rfl⟩
  | decode p =>
    simp only [stepInput_decode, execDecode, ← hprof]
    cases s.profile with
    | none => exact .refused _
    | some P =>
      exact .next ⟨hst, hprof, hin, rfl, hports, sameRegs_congr (sameSync_answer _ s) (sameSync_answer _ t) hregs⟩

/-- Two states alike step alike: both idle, or both take the same input. -/
theorem step_alike {s t : State} (h : s.Alike t) : AlikeOutcome (step s) (step t) := by
  have ⟨hst, hprof, hin, hout, hports, hregs⟩ := h
  cases hs : s.inputs with
  | nil =>
    rw [step_idle hs, step_idle (hin ▸ hs)]
    exact .next ⟨hst, hprof, hin, rfl, rfl, sameRegs_congr (sameSync_quiet s) (sameSync_quiet t) hregs⟩
  | cons i rest =>
    rw [step_cons hs, step_cons (hin ▸ hs)]
    have h' : State.Alike { s with inputs := rest } { t with inputs := rest } :=
      ⟨hst, hprof, rfl, hout, hports, sameRegs_congr (sameSync_setInputs s rest) (sameSync_setInputs t rest) hregs⟩
    exact stepInput_alike h' i

end Sys2Proof.Machine

namespace Sys2Proof.Proofs

open Sys2Proof.Machine

/-- Settles O30: the two outcomes are alike, in each of the three forms an outcome can have. -/
theorem hiddenRegistersNeverShow : Obligations.HiddenRegistersNeverShow := by
  intro s t h
  have ha := step_alike h
  generalize step s = os at ha ⊢
  generalize step t = ot at ha ⊢
  cases ha with
  | next h' =>
    refine ⟨fun s' e => ?_, fun _ e => (by cases e), fun _ e => (by cases e)⟩
    cases e
    exact ⟨_, rfl, h'⟩
  | fault r => exact ⟨fun _ e => (by cases e), fun _ e => e, fun _ e => (by cases e)⟩
  | refused r => exact ⟨fun _ e => (by cases e), fun _ e => (by cases e), fun _ e => e⟩

end Sys2Proof.Proofs
end

section
/-! The profile, the buffer and the reset state: what every step keeps of them (10_state.md R31, R25, R38). -/

namespace Sys2Proof.Machine

/-- No operation writes the profile. -/
theorem exec_profile {i : Instr} {s t : State} (h : exec i s = .next t) : t.profile = s.profile := by
  cases i with
  | payloadData b =>
    obtain ⟨-, rfl⟩ := execPayloadData_next h
    rfl
  | payloadCkhi b =>
    obtain ⟨-, rfl⟩ := execPayloadCkhi_next h
    rfl
  | payloadCkloOk b =>
    obtain ⟨-, -, rfl⟩ := execPayloadCkloOk_next h
    rfl
  | payloadCkloBad b =>
    obtain ⟨-, -, rfl⟩ := execPayloadCkloBad_next h
    rfl
  | decode p =>
    obtain ⟨P, -, rfl⟩ := execDecode_next h
    rfl
  | seek1Hdr1 | seek1Skip | seek2Hdr2 | seek2Miss | lenBad | lenOk | clear | reset =>
    cases h
    rfl

/-- No step writes the profile: it is idle, or it performs an operation. -/
theorem step_profile {s t : State} (h : step s = .next t) : t.profile = s.profile := by
  rcases step_next_cases h with ⟨-, rfl⟩ | ⟨i, rest, -, ht⟩
  · rfl
  · obtain ⟨instr, -, he⟩ := stepInput_exec ht
    have hp := exec_profile he
    exact hp

/-- The buffer's invariant speaks of the synchronizer alone. -/
theorem State.BufInv.congr {s t : State} (e : SameSync s t) (h : s.BufInv) : t.BufInv where
  canonical := e.buf ▸ h.canonical
  written := by
    rw [e.st, e.cnt, e.buf]
    exact h.written

/-- Outside PAYLOAD only the buffer's form is asked. -/
theorem bufInv_of_not_payload {s : State} (h : s.st ≠ .payload) (hb : Memory.wf s.buf = true) : s.BufInv :=
  ⟨hb, fun h1 => absurd h1 h⟩

/-- Storing the next byte of a frame keeps the buffer's form and lists one index more. -/
theorem State.BufInv.pushed {s : State} (h : s.BufInv) (hst : s.st = .payload) (hc : s.cnt.toNat < 255) (b : Byte) :
    (s.pushed b).BufInv where
  canonical := Memory.write_wf hc h.canonical
  written _ i hi := by
    rw [pushed_cnt_toNat b hc] at hi
    rw [pushed_buf]
    by_cases he : i = s.cnt.toNat
    · rw [he, Memory.read?_write_same]
      rfl
    · rw [Memory.read?_write_other _ _ he]
      exact h.written hst i (by omega)

/-- The buffer's invariant, for one taken input. -/
theorem took_keeps_bufInv {s t : State} {i : Input} (h : s.BufInv) (ht : Took s i t) : t.BufInv := by
  cases ht with
  | skip b hst => exact h.congr (sameSync_quiet s)
  | lenOk b hst hb => exact ⟨h.canonical, fun _ i hi => absurd hi (Nat.not_lt_zero i)⟩
  | data b hst hc =>
    have hn := s.n.isLt
    have hp := h.pushed hst (by omega) b
    exact ⟨hp.canonical, hp.written⟩
  | ckHi b hst hc =>
    have hn := s.n.isLt
    exact (h.pushed hst (by omega) b).congr (sameSync_quiet _)
  | ckLo b hst hn hc =>
    have hlt := s.n.isLt
    exact bufInv_of_not_payload nofun (h.pushed hst (by omega) b).canonical
  | decode p P hP => exact h.congr (sameSync_answer _ s)
  | reset => exact bufInv_of_not_payload nofun rfl
  | hdr1 | hdr2 | miss | lenBad | clear => exact bufInv_of_not_payload nofun h.canonical

end Sys2Proof.Machine

namespace Sys2Proof.Proofs

open Sys2Proof.Machine

/-- Settles O17: every operation keeps the profile, so every step does. -/
theorem profileIsImmutable : Obligations.ProfileIsImmutable :=
  ⟨fun _ _ _ h => exec_profile h, fun _ _ h => step_profile h⟩

/-- Settles O29: before a frame's last byte `n - 2` is below the counter, and every index below it is listed. -/
theorem bufferInvariantKept : Obligations.BufferInvariantKept :=
  ⟨fun _ _ hs h => step_keeps State.BufInv.congr took_keeps_bufInv hs h,
    fun _ hs hst hn hc i hi => hs.written hst i (by omega)⟩

/-- Settles O1: the reset state lists these values, and a buffer with no cell lists no byte. -/
theorem resetStateHoldsSpecValues : Obligations.ResetStateHoldsSpecValues :=
  ⟨rfl, rfl, rfl, rfl, rfl, rfl, rfl, rfl, rfl, Memory.read?_nil⟩

/-- Settles O27: the reset state is in SEEK1 with an empty buffer. -/
theorem resetMeetsInvariants : Obligations.ResetMeetsInvariants :=
  ⟨regInv_of_seek1 rfl, bufInv_of_not_payload nofun rfl⟩

end Sys2Proof.Proofs
end

section
/-! The output registers carry the event of the cycle (10_state.md R36, 30_encoding.md R83). -/

namespace Sys2Proof.Machine

/-- What the output registers hold after a cycle that returned `e?`. -/
def State.PortsShow (t : State) : Option Event → Prop
  | some (.frame _ l) => t.ports = ⟨true, 0#2, l, t.sum, t.sum⟩
  | some (.checksumError e c) => t.ports = ⟨true, 1#2, 0#8, e, c⟩ ∧ c = t.sum ∧ e ≠ c
  | some (.lengthError n) => t.ports = ⟨true, 2#2, n, 0#16, 0#16⟩ ∧ n.toNat < 2
  | none => t.ports = Ports.idle

/-- A cycle with no event clears the output registers. -/
theorem portsShow_of_idle {t : State} (ho : t.output = none) (hp : t.ports = Ports.idle) : t.PortsShow t.event? := by
  rw [event?_of_none ho]
  exact hp

/-- Every input but a DECODE leaves its event in the output registers; the last byte's event follows the test of the
sum against the received checksum. -/
theorem took_portsShow {s t : State} {i : Input} (hi : ∀ p, i ≠ .decode p) (h : Took s i t) :
    t.PortsShow t.event? := by
  cases h with
  | lenBad b hst hb => exact ⟨rfl, hb⟩
  | ckLo b hst hn hc =>
    rw [event?_of_event (report_output _ _ _)]
    split
    · next hsum =>
      simp only [State.PortsShow, report_ports, report_sum, pushed_sum, ← hsum]
      rfl
    · next hsum => exact ⟨rfl, rfl, fun he => hsum he.symm⟩
  | decode p P hP => exact absurd rfl (hi p)
  | hdr1 | skip | hdr2 | miss | lenOk | data | ckHi | clear | reset => exact portsShow_of_idle rfl rfl

/-- The pins present no DECODE. -/
theorem pins_input_ne_decode {pins : Pins} {i : Input} (h : pins.input = some i) (p : ByteString) : i ≠ .decode p := by
  rintro rfl
  unfold Pins.input at h
  split_ifs at h <;> cases h

/-- The output registers after a clock cycle, whatever the pins present. -/
theorem portCycle_portsShow {pins : Pins} {s t : State} (h : portCycle pins s = .next t) :
    t.PortsShow t.event? := by
  unfold portCycle at h
  split at h
  · next i hi => exact took_portsShow (pins_input_ne_decode hi) (took_of_stepInput h)
  · cases h
    exact portsShow_of_idle rfl rfl

end Sys2Proof.Machine

namespace Sys2Proof.Proofs

open Sys2Proof.Machine

/-- Settles O44: each clause is what the output registers show for one form of event. -/
theorem portsCarryTheEvent : Obligations.PortsCarryTheEvent := by
  intro pins s t h
  have hp := portCycle_portsShow h
  refine ⟨fun p l he => ?_, fun e c he => ?_, fun n he => ?_, fun he => ⟨0#2, ?_⟩⟩
  all_goals
    rw [he] at hp
    exact hp

end Sys2Proof.Proofs
end

section
/-! From the wire to the measurement: a valid frame, its payload in the buffer, and the port-level decoder over it
(40_frame_sync.md R113, 10_state.md R37). -/

namespace Sys2Proof.Machine

/-- A 16-bit value is the big-endian pair of its two bytes. -/
theorem be16_bytes (ck : Half) : be16 (ck.extractLsb' 8 8) (ck.extractLsb' 0 8) = ck := by
  apply BitVec.eq_of_toNat_eq
  have := ck.isLt
  rw [be16_toNat, BitVec.extractLsb'_toNat, BitVec.extractLsb'_toNat, Nat.shiftRight_eq_div_pow]
  omega

/-- What a valid frame leaves: SEEK1, its payload in the buffer, the profile untouched. -/
structure AfterFrame (s t : State) (p : ByteString) : Prop where
  st : t.st = .seek1
  bytes : t.bufBytes p.length = p
  profile : t.profile = s.profile

/-- From SEEK1, a frame whose checksum field is the payload's checksum gives FRAME of the payload and nothing else;
its last byte is stored above the payload. -/
theorem run_frame {s : State} (p : ByteString) (hi lo : Byte) (h : s.st = .seek1) (hp : p.length + 2 ≤ 255)
    (hck : be16 hi lo = frameChecksum p) :
    ∃ t, run (feed ([0xAB#8, 0xCD#8, BitVec.ofNat 8 (p.length + 2)] ++ p ++ [hi, lo])) s
        = .next (t, [.frame p (BitVec.ofNat 8 p.length)]) ∧ AfterFrame s t p := by
  obtain ⟨u, hu, a⟩ := run_toLast p hi h hp
  have hn : u.n.toNat - 2 = p.length := by rw [a.n]; rfl
  have hn2 : 2 ≤ u.n.toNat := by rw [a.n]; omega
  have hlen : u.n - 2#8 = BitVec.ofNat 8 p.length := by rw [len_sub_two hn2, hn]
  have hlast := stepInput_ckLo a.st hn2 (by rw [a.cnt, a.n]) lo
  rw [hn, a.ckHi, a.bytes, hck, a.sum, if_pos rfl, hlen] at hlast
  have hcut : [0xAB#8, 0xCD#8, BitVec.ofNat 8 (p.length + 2)] ++ p ++ [hi, lo]
      = ([0xAB#8, 0xCD#8, BitVec.ofNat 8 (p.length + 2)] ++ p ++ [hi]) ++ [lo] := by
    simp only [List.append_assoc, List.cons_append, List.nil_append]
  rw [hcut, feed_append]
  refine ⟨_, run_append hu (run_cons_next (es := []) hlast rfl), rfl, ?_, a.profile⟩
  calc State.bufBytes _ p.length
      = u.bufBytes p.length := bufBytes_write (pushed_buf lo u) rfl (by rw [a.cnt]; omega)
    _ = p := a.bytes

/-- From SEEK1, the valid frame of a payload gives FRAME of the payload and nothing else (R113). -/
theorem run_frameBytes {s : State} (p : ByteString) (h : s.st = .seek1) (hp : p.length + 2 ≤ 255) :
    ∃ t, run (feed (frameBytes p)) s = .next (t, [.frame p (BitVec.ofNat 8 p.length)]) ∧ AfterFrame s t p :=
  run_frame p _ _ h hp (be16_bytes (frameChecksum p))

/-- While the buffer begins with a payload of 14 bytes or more, the port-level decoder gives its measurement. -/
theorem portDecode_of_bufBytes {s : State} {P : Profile} {p : ByteString} (hP : s.profile = some P)
    (hl : 14 ≤ p.length) (hb : s.bufBytes p.length = p) : portDecode s = some (decodePayload P p) := by
  have h14 : s.bufBytes Config.payloadLen = p.take 14 := by
    rw [← bufBytes_take (s := s) (show Config.payloadLen ≤ p.length from hl), hb]
    rfl
  rw [portDecode, hP, h14, Option.map_some, decodePayload_take hl]

/-- DECODE under a loaded profile returns the result and changes nothing else. -/
theorem execDecode_of_profile {s : State} {P : Profile} (p : ByteString) (h : s.profile = some P) :
    exec (.decode p) s = .next (s.answer (decodePayload P p)) := by
  show execDecode p s = _
  rw [execDecode, h]

end Sys2Proof.Machine

namespace Sys2Proof.Proofs

open Sys2Proof.Machine

/-- Settles O46: the frame leaves its payload in the buffer, and the next three bytes write no buffer byte. -/
theorem measurementFrameDecodes : Obligations.MeasurementFrameDecodes := by
  intro s P p hst hP hl hp
  obtain ⟨t, ht, a⟩ := run_frameBytes p hst hp
  have hPt : t.profile = some P := a.profile.trans hP
  refine ⟨t, ht, portDecode_of_bufBytes hPt hl a.bytes, execDecode_of_profile p hPt, fun bs hbs => ?_⟩
  obtain ⟨u, es, hu, hbuf, hera, hprof⟩ := run_quietBytes bs (s := t) (by rw [a.st]; exact hbs)
  have hbytes : u.bufBytes p.length = t.bufBytes p.length := bufBytes_congr fun i _ => bufRead_congr hbuf hera i
  exact ⟨u, es, hu, portDecode_of_bufBytes (hprof.trans hPt) hl (hbytes.trans a.bytes)⟩

end Sys2Proof.Proofs
end

section
/-! The optional fields of the measurement record (10_state.md R32, 30_encoding.md R86). -/

namespace Sys2Proof.Machine

/-- A first byte with an exponent is stripped (R149). -/
theorem normaliseUnit_of_exponent {P : Profile} {u : ByteString} {k : Int} (h : unitExponent P u = some k) :
    normaliseUnit P (some u) = some u.tail := by
  simp only [normaliseUnit, h]

/-- A unit whose first byte has no exponent is returned whole (R149). -/
theorem normaliseUnit_of_no_exponent {P : Profile} {u : ByteString} (h : unitExponent P u = none) :
    normaliseUnit P (some u) = some u := by
  simp only [normaliseUnit, h]

/-- Normalising drops no unit and makes none. -/
theorem normaliseUnit_eq_none {P : Profile} {u : Option ByteString} : normaliseUnit P u = none ↔ u = none := by
  cases u with
  | none => exact ⟨id, id⟩
  | some u =>
    cases hk : unitExponent P u with
    | none => simp [normaliseUnit_of_no_exponent hk]
    | some k => simp [normaliseUnit_of_exponent hk]

/-- Normalising drops no value and makes none. -/
theorem normaliseValue_eq_none {P : Profile} {v : Option Decimal} {u : Option ByteString} :
    normaliseValue P v u = none ↔ v = none := by
  cases v with
  | none => exact ⟨id, id⟩
  | some d => simp [normaliseValue_some]

/-- A unit read from UNITS is the unit of an entry. -/
theorem unitOf_eq_some {P : Profile} {name : ByteString} {r : Byte} {u : ByteString} (h : unitOf P name r = some u) :
    ∃ e ∈ P.units, e.unit = u := by
  obtain ⟨e, he, rfl⟩ := Option.map_eq_some_iff.mp h
  exact ⟨e, List.mem_of_find?_eq_some he, rfl⟩

/-- A byte that EXPONENT_TABLE gives an exponent is the byte of an entry. -/
theorem exponentOf_eq_some {P : Profile} {b : Byte} {k : Int} (h : exponentOf P b = some k) :
    ∃ e ∈ P.exponentTable, e.byte = b := by
  obtain ⟨e, he, -⟩ := Option.map_eq_some_iff.mp h
  exact ⟨e, List.mem_of_find?_eq_some he, by simpa using List.find?_some he⟩

/-- What is returned of a unit is all of it, or all but a first byte that EXPONENT_TABLE lists (R149). -/
theorem normaliseUnit_some_cases {P : Profile} {w u : ByteString} (h : normaliseUnit P (some w) = some u) :
    u = w ∨ ∃ c k, w = c :: u ∧ exponentOf P c = some k := by
  cases hk : unitExponent P w with
  | none =>
    rw [normaliseUnit_of_no_exponent hk] at h
    exact .inl (Option.some.inj h).symm
  | some k =>
    rw [normaliseUnit_of_exponent hk] at h
    obtain rfl := Option.some.inj h
    cases w with
    | nil => cases hk
    | cons c cs => exact .inr ⟨c, k, rfl, hk⟩

/-- The unit of a legal entry is at most 8 bytes of UTF-8 text. -/
theorem unitEntry_wf_text {e : UnitEntry} (h : e.wf = true) : e.unit.length ≤ 8 ∧ isUtf8 e.unit = true := by
  simp only [UnitEntry.wf, Bool.and_eq_true, decide_eq_true_eq] at h
  obtain ⟨⟨-, hlen⟩, hutf⟩ := h
  exact ⟨hlen, hutf⟩

/-- Under an admitted profile a normalised unit is at most 8 bytes of UTF-8 text: the byte that is stripped is
ASCII, a whole character. -/
theorem normaliseUnit_text {P : Profile} (hP : P.wf = true) {name : ByteString} {r : Byte} {u : ByteString}
    (h : normaliseUnit P (unitOf P name r) = some u) : u.length ≤ 8 ∧ isUtf8 u = true := by
  obtain ⟨-, hunits, hexps, -, -⟩ := (profile_wf_iff P).mp hP
  cases hw : unitOf P name r with
  | none =>
    rw [hw] at h
    cases h
  | some w =>
    rw [hw] at h
    obtain ⟨e, he, rfl⟩ := unitOf_eq_some hw
    obtain ⟨hlen, hutf⟩ := unitEntry_wf_text (hunits e he)
    rcases normaliseUnit_some_cases h with rfl | ⟨c, k, hc, hk⟩
    · exact ⟨hlen, hutf⟩
    · obtain ⟨x, hx, rfl⟩ := exponentOf_eq_some hk
      rw [hc, List.length_cons] at hlen
      rw [hc, isUtf8_cons (hexps x hx)] at hutf
      exact ⟨by omega, hutf⟩

end Sys2Proof.Machine

namespace Sys2Proof.Proofs

open Sys2Proof.Machine

/-- Settles O56: an overload brings no value and a parse always one; the unit is the table's, normalised. -/
theorem optionalFieldsOfTheRecord : Obligations.OptionalFieldsOfTheRecord := by
  intro P p m h
  obtain ⟨f, name, t, ov, v0, hf, hname, -, hv, rfl⟩ := decodePayload_ok h
  refine ⟨?_, ⟨name, f.rangeCode, hname, ?_, normaliseUnit_eq_none⟩, fun hP u hu => normaliseUnit_text hP hu⟩
  · show normaliseValue P v0 _ = none ↔ ov = true
    rw [normaliseValue_eq_none]
    rcases readValue_eq_some hv with ⟨rfl, rfl, -⟩ | ⟨rfl, -, d, rfl, -⟩ <;> simp
  · obtain ⟨d2, d3, d4, d5, d6, d7, d8, rest, rfl, -⟩ := payloadFields_eq_some hf
    rfl

end Sys2Proof.Proofs
end

section
/-! Streams in parts: one run after another, frames back to back (20_memory.md R61) and chunks (R66). -/

namespace Sys2Proof.Machine

/-- One run and then, from the state it leaves, another: the events in order, the first stop ending both. -/
def andThen (o : Host.Outcome (State × List Event) Fault Refusal)
    (f : State → Host.Outcome (State × List Event) Fault Refusal) :
    Host.Outcome (State × List Event) Fault Refusal :=
  match o with
  | .next (s, es) =>
    match f s with
    | .next (t, es') => .next (t, es ++ es')
    | .fault r => .fault r
    | .refused r => .refused r
  | .fault r => .fault r
  | .refused r => .refused r

/-- A run without an event leaves the next one as it is. -/
theorem andThen_nil (s : State) (f : State → Host.Outcome (State × List Event) Fault Refusal) :
    andThen (.next (s, [])) f = f s := by
  simp only [andThen]
  cases f s <;> rfl

theorem andThen_assoc (o : Host.Outcome (State × List Event) Fault Refusal)
    (f g : State → Host.Outcome (State × List Event) Fault Refusal) :
    andThen (andThen o f) g = andThen o fun s => andThen (f s) g := by
  cases o with
  | next x =>
    obtain ⟨s, es⟩ := x
    simp only [andThen]
    cases f s with
    | next y =>
      obtain ⟨t, es'⟩ := y
      cases hg : g t with
      | next z => simp only [hg, List.append_assoc]
      | fault r => simp only [hg]
      | refused r => simp only [hg]
    | fault r => rfl
    | refused r => rfl
  | fault r => rfl
  | refused r => rfl

/-- A run takes its first input and then the rest (40_frame_sync.md R100). -/
theorem run_cons (i : Input) (is : List Input) (s : State) : run (i :: is) s = andThen (run [i] s) (run is) := by
  cases hi : stepInput i s with
  | next t =>
    cases his : run is t with
    | next x => simp only [run, andThen, hi, his, List.append_nil]
    | fault r => simp only [run, andThen, hi, his]
    | refused r => simp only [run, andThen, hi, his]
  | fault r => simp only [run, andThen, hi]
  | refused r => simp only [run, andThen, hi]

/-- Two parts of a stream run one after the other, whatever the outcome of each. -/
theorem run_append_eq (is js : List Input) (s : State) : run (is ++ js) s = andThen (run is s) (run js) := by
  induction is generalizing s with
  | nil => exact (andThen_nil s (run js)).symm
  | cons i is ih =>
    calc run (i :: (is ++ js)) s
        = andThen (run [i] s) (run (is ++ js)) := run_cons i (is ++ js) s
      _ = andThen (run [i] s) fun u => andThen (run is u) (run js) := by rw [funext ih]
      _ = andThen (run (i :: is) s) (run js) := by rw [run_cons i is, andThen_assoc]

/-- The first chunk, and then the others from the state it leaves. -/
theorem runChunks_cons (c : ByteString) (cs : List ByteString) (s : State) :
    runChunks (c :: cs) s = andThen (run (feed c) s) (runChunks cs) := rfl

/-- The chunks of a stream, one after another, are the stream (R66). -/
theorem runChunks_eq_run (chunks : List ByteString) (s : State) :
    runChunks chunks s = run (feed chunks.flatten) s := by
  induction chunks generalizing s with
  | nil => rfl
  | cons c cs ih => rw [runChunks_cons, funext ih, List.flatten_cons, feed_append, run_append_eq]

/-- Valid frames back to back, each found from the SEEK1 that the one before it leaves (R113, R205). -/
theorem run_frames (ps : List ByteString) {s : State} (h : s.st = .seek1) (hps : ∀ p ∈ ps, p.length + 2 ≤ 255) :
    ∃ t, run (feed (ps.flatMap frameBytes)) s = .next (t, ps.map fun p => .frame p (BitVec.ofNat 8 p.length))
      ∧ t.st = .seek1 := by
  induction ps generalizing s with
  | nil => exact ⟨s, rfl, h⟩
  | cons p ps ih =>
    obtain ⟨hp, hps⟩ := List.forall_mem_cons.mp hps
    obtain ⟨u, hu, a⟩ := run_frameBytes p h hp
    obtain ⟨t, ht, hst⟩ := ih a.st hps
    rw [List.flatMap_cons, feed_append]
    exact ⟨t, run_append hu ht, hst⟩

end Sys2Proof.Machine

namespace Sys2Proof.Proofs

open Sys2Proof.Machine

/-- Settles O34, by induction on the frames. -/
theorem backToBackFramesAllFound : Obligations.BackToBackFramesAllFound :=
  fun _ ps h hps => run_frames ps h hps

/-- Settles O42: feeding chunks in turn and feeding their concatenation both run the parts one after another. -/
theorem chunksAreInvisible : Obligations.ChunksAreInvisible := runChunks_eq_run

end Sys2Proof.Proofs
end

section
/-! What an operation leaves of the buffer and of what stands beside the synchronizer (20_memory.md R50, R51). -/

namespace Sys2Proof.Machine

/-- No operation writes the pending inputs: one that runs with them set to what they are leaves them set. -/
theorem exec_inputs {i : Instr} {s t : State} (h : exec i s = .next t) : t.inputs = s.inputs := by
  have hset := exec_setInputs i s s.inputs
  rw [h] at hset
  have ht : t = { t with inputs := s.inputs } := Host.Outcome.next.inj hset
  rw [ht]

/-- The operations that write the buffer: the four of PAYLOAD store a byte, RESET empties it. -/
def touchesBuffer : Instr → Bool
  | .payloadData _ | .payloadCkhi _ | .payloadCkloOk _ | .payloadCkloBad _ | .reset => true
  | .seek1Hdr1 | .seek1Skip _ | .seek2Hdr2 | .seek2Miss _ | .lenBad _ | .lenOk _ | .clear | .decode _ => false

/-- Every other operation leaves the cells and their free values. -/
theorem exec_buf_of_not_touchesBuffer {i : Instr} {s t : State} (hi : touchesBuffer i = false)
    (h : exec i s = .next t) : t.buf = s.buf ∧ t.era = s.era := by
  cases i with
  | payloadData | payloadCkhi | payloadCkloOk | payloadCkloBad | reset => cases hi
  | decode p =>
    obtain ⟨P, -, rfl⟩ := execDecode_next h
    exact ⟨rfl, rfl⟩
  | seek1Hdr1 | seek1Skip | seek2Hdr2 | seek2Miss | lenBad | lenOk | clear =>
    cases h
    exact ⟨rfl, rfl⟩

/-- What a PAYLOAD operation on byte `b` does to the buffer and its counters (R107 to R110). -/
structure StoredByte (b : Byte) (s t : State) : Prop where
  room : s.cnt.toNat < 255
  buf : t.buf = s.buf.write s.cnt.toNat b
  cnt : t.cnt = (s.pushed b).cnt
  n : t.n = s.n
  era : t.era = s.era

/-- The four PAYLOAD operations store their byte alike; PAYLOAD.DATA alone also adds it to the sum. -/
theorem exec_payload_storedByte {i : Instr} {b : Byte} {s t : State}
    (hi : i = .payloadData b ∨ i = .payloadCkhi b ∨ i = .payloadCkloOk b ∨ i = .payloadCkloBad b)
    (h : exec i s = .next t) : StoredByte b s t ∧ (i ≠ .payloadData b → t.sum = s.sum) := by
  rcases hi with rfl | rfl | rfl | rfl
  · obtain ⟨hc, rfl⟩ := execPayloadData_next h
    exact ⟨⟨hc, rfl, rfl, rfl, rfl⟩, fun hne => absurd rfl hne⟩
  · obtain ⟨hc, rfl⟩ := execPayloadCkhi_next h
    exact ⟨⟨hc, rfl, rfl, rfl, rfl⟩, fun _ => rfl⟩
  · obtain ⟨hc, -, rfl⟩ := execPayloadCkloOk_next h
    exact ⟨⟨hc, rfl, rfl, rfl, rfl⟩, fun _ => rfl⟩
  · obtain ⟨hc, -, rfl⟩ := execPayloadCkloBad_next h
    exact ⟨⟨hc, rfl, rfl, rfl, rfl⟩, fun _ => rfl⟩

end Sys2Proof.Machine

namespace Sys2Proof.Proofs

open Sys2Proof.Machine

/-- Settles O15: none of these operations touches the buffer, and a read sees only its cells and the era. -/
theorem nonStoringOpsKeepBuffer : Obligations.NonStoringOpsKeepBuffer := by
  intro i s t hi h
  have hkeep : touchesBuffer i = false := by
    rcases hi with rfl | ⟨b, rfl⟩ | rfl | ⟨b, rfl⟩ | ⟨b, rfl⟩ | ⟨b, rfl⟩ | rfl | ⟨p, rfl⟩ <;> rfl
  obtain ⟨hbuf, hera⟩ := exec_buf_of_not_touchesBuffer hkeep h
  exact ⟨bufRead_congr hbuf hera, exec_profile h, exec_inputs h, hera⟩

/-- Settles O16: the four operations are one write at the counter, below the buffer's end. -/
theorem payloadOpsStoreOneByte : Obligations.PayloadOpsStoreOneByte := by
  intro i b s t hi h
  obtain ⟨stored, hsum⟩ := exec_payload_storedByte hi h
  have hcnt : t.cnt.toNat = s.cnt.toNat + 1 := by rw [stored.cnt, pushed_cnt_toNat b stored.room]
  exact ⟨bufRead_write_same stored.buf, fun a ha => bufRead_write_other stored.buf stored.era ha, hcnt, stored.n,
    exec_profile h, exec_inputs h, stored.era, hsum⟩

end Sys2Proof.Proofs
end

section
/-! Reads of the profile's tables by key (20_memory.md R53). -/

namespace Sys2Proof.Machine

/-- UNITS gives no unit exactly when no entry has the key (41_payload_decode.md R147). -/
theorem unitOf_eq_none {P : Profile} {name : ByteString} {r : Byte} :
    unitOf P name r = none ↔ ∀ e ∈ P.units, e.mode = name → e.range ≠ r := by
  simp only [unitOf, Option.map_eq_none_iff, List.find?_eq_none, Bool.and_eq_true, decide_eq_true_eq, not_and, ne_eq]

/-- EXPONENT_TABLE gives no exponent exactly when no entry has the byte (30_encoding.md R87). -/
theorem exponentOf_eq_none {P : Profile} {b : Byte} :
    exponentOf P b = none ↔ ∀ e ∈ P.exponentTable, e.byte ≠ b := by
  simp only [exponentOf, Option.map_eq_none_iff, List.find?_eq_none, decide_eq_true_eq, ne_eq]

/-- An EXPONENT_TABLE with one entry a byte, read by key, is its entries. -/
theorem exponentOf_eq_some_iff {P : Profile} (hn : (P.exponentTable.map ExponentEntry.byte).Nodup) {b : Byte}
    {k : Int} : exponentOf P b = some k ↔ ⟨b, k⟩ ∈ P.exponentTable := by
  constructor
  · intro h
    obtain ⟨e, he, rfl⟩ := Option.map_eq_some_iff.mp h
    have hb : e.byte = b := by simpa using List.find?_some he
    exact hb ▸ List.mem_of_find?_eq_some he
  · intro h
    rw [exponentOf, find?_key ExponentEntry.byte hn h]
    rfl

/-- The default exponents are those of M, k, m, u and n (R87). -/
theorem mem_defaultExponentTable {b : Byte} {k : Int} :
    ⟨b, k⟩ ∈ defaultExponentTable ↔ (b = 0x4D#8 ∧ k = 6) ∨ (b = 0x6B#8 ∧ k = 3) ∨ (b = 0x6D#8 ∧ k = -3)
      ∨ (b = 0x75#8 ∧ k = -6) ∨ (b = 0x6E#8 ∧ k = -9) := by
  simp only [defaultExponentTable, List.mem_cons, ExponentEntry.mk.injEq, List.not_mem_nil, or_false]

theorem defaultExponentTable_nodup : (defaultExponentTable.map ExponentEntry.byte).Nodup := by decide

end Sys2Proof.Machine

namespace Sys2Proof.Proofs

open Sys2Proof.Machine

/-- Settles O60: an admitted profile has one entry a key, and so has the default exponent table. -/
theorem profileTablesAreReadByKey : Obligations.ProfileTablesAreReadByKey := by
  refine ⟨fun P hP => ⟨fun e he => unitOf_of_mem hP he, fun e he => exponentOf_of_mem hP he⟩,
    fun P name r h => unitOf_eq_none.mpr h, fun P b h => exponentOf_eq_none.mpr h, fun P i name => Iff.rfl,
    fun P b k hP => ?_⟩
  have hn : (P.exponentTable.map ExponentEntry.byte).Nodup := hP ▸ defaultExponentTable_nodup
  rw [exponentOf_eq_some_iff hn, hP, mem_defaultExponentTable]

end Sys2Proof.Proofs
end

section
/-! The decoder and the encoder are inverse, and the operation map has exactly one row for a word (30_encoding.md R74
to R76). -/

namespace Sys2Proof

/-- Decoding the encoding of a well-formed operation whose row applies gives it back. -/
theorem decode_encode {i : Instr} {c : RowCtx} (hw : i.wf = true) (ha : i.applies c = true) :
    decode c (encode i) = .ok i := by
  cases i with
  | seek1Hdr1 => exact decode_seek1 c 0xAB#8
  | seek1Skip b => rw [encode, decode_seek1, if_neg (bne_iff_ne.mp hw)]
  | seek2Hdr2 => exact decode_seek2 c 0xCD#8
  | seek2Miss b => rw [encode, decode_seek2, if_neg (bne_iff_ne.mp hw)]
  | lenBad b => rw [encode, decode_len, if_pos (of_decide_eq_true hw)]
  | lenOk b => rw [encode, decode_len, if_neg (Nat.not_lt.mpr (of_decide_eq_true hw))]
  | payloadData b => exact decode_data b ((atData_iff c).mp ha)
  | payloadCkhi b => exact decode_ckHi b ((atCkHi_iff c).mp ha)
  | payloadCkloOk b =>
    obtain ⟨hc, hs⟩ := Bool.and_eq_true_iff.mp ha
    rw [encode, decode_ckLo b ((atCkLo_iff c).mp hc), if_pos ((sumMatches_iff c b).mp hs)]
  | payloadCkloBad b =>
    obtain ⟨hc, hs⟩ := Bool.and_eq_true_iff.mp ha
    have hs : ¬ c.sum = be16 c.ckHi b := by simpa [← sumMatches_iff] using hs
    rw [encode, decode_ckLo b ((atCkLo_iff c).mp hc), if_neg hs]
  | clear | reset | decode => rfl

/-- What a word decodes to is encoded by that word, is well-formed, and its row applies. -/
theorem encode_of_decode_opWord {c : RowCtx} {st : St} {b : Byte} {i : Instr}
    (h : decode c (.sync10 (opWord st b)) = .ok i) :
    encode i = .sync10 (opWord st b) ∧ i.wf = true ∧ i.applies c = true := by
  cases st with
  | seek1 =>
    obtain rfl := Except.ok.inj ((decode_seek1 c b).symm.trans h)
    split
    · next hb => exact ⟨hb ▸ rfl, rfl, rfl⟩
    · next hb => exact ⟨rfl, bne_iff_ne.mpr hb, rfl⟩
  | seek2 =>
    obtain rfl := Except.ok.inj ((decode_seek2 c b).symm.trans h)
    split
    · next hb => exact ⟨hb ▸ rfl, rfl, rfl⟩
    · next hb => exact ⟨rfl, bne_iff_ne.mpr hb, rfl⟩
  | len =>
    obtain rfl := Except.ok.inj ((decode_len c b).symm.trans h)
    split
    · next hb => exact ⟨rfl, decide_eq_true hb, rfl⟩
    · next hb => exact ⟨rfl, decide_eq_true (Nat.not_lt.mp hb), rfl⟩
  | payload =>
    rw [decode_payload] at h
    split_ifs at h with hData hCkHi hCkLo hSum <;> cases h
    · exact ⟨rfl, rfl, hData⟩
    · exact ⟨rfl, rfl, hCkHi⟩
    · exact ⟨rfl, rfl, by simp [Instr.applies, hCkLo, hSum]⟩
    · exact ⟨rfl, rfl, by simp [Instr.applies, hCkLo, hSum]⟩

/-- What a code decodes to has that code, is well-formed, and its row applies. -/
theorem encode_of_decode {c : RowCtx} {x : Code} {i : Instr} (h : decode c x = .ok i) :
    encode i = x ∧ i.wf = true ∧ i.applies c = true := by
  cases x with
  | sync10 w =>
    rw [← opWord_of_word w] at h ⊢
    exact encode_of_decode_opWord h
  | ctrlClear | ctrlReset | decode =>
    cases h
    exact ⟨rfl, rfl, rfl⟩

/-- A state is told by its two code bits (R75). -/
theorem code_and_three_eq_code {st p : St} : st.code &&& 0b11#2 = p.code ↔ st = p := by
  cases st <;> cases p <;> decide

/-- A row that fixes both state bits hits the words of its state whose byte fits and meets its extra condition. -/
theorem hits_iff {P M : BitVec 10} {p st : St} {q k b : Byte} {x : RowCtx → Byte → Bool} {f : Byte → Instr}
    {c : RowCtx} (hP : P = opWord p q) (hM : M = opWord .payload k) :
    OpRow.hits ⟨P, M, x, f⟩ c (opWord st b) = true ↔ (st = p ∧ b &&& k = q) ∧ x c b = true := by
  have hmask : opWord st b &&& opWord .payload k = opWord p q ↔ st = p ∧ b &&& k = q :=
    (masked_word_eq _ _ _ _ _ _).trans (and_congr_left fun _ => code_and_three_eq_code)
  simp only [OpRow.hits, hP, hM, hmask, wordByte_opWord, Bool.and_eq_true, decide_eq_true_eq]

/-- A row that fixes all ten bits hits one word. -/
theorem eq_of_hits_word {P : BitVec 10} {p st : St} {q b : Byte} {x : RowCtx → Byte → Bool} {f : Byte → Instr}
    {c : RowCtx} (h : OpRow.hits ⟨P, 0x3FF#10, x, f⟩ c (opWord st b) = true) (hP : P = opWord p q) :
    st = p ∧ b = q := by
  obtain ⟨⟨hst, hb⟩, -⟩ := (hits_iff (k := 0xFF#8) hP rfl).mp h
  exact ⟨hst, (byte_and_ff b).symm.trans hb⟩

/-- A row that fixes the state bits alone leaves the byte to its extra condition. -/
theorem of_hits_state {P : BitVec 10} {p st : St} {b : Byte} {x : RowCtx → Byte → Bool} {f : Byte → Instr}
    {c : RowCtx} (h : OpRow.hits ⟨P, 0x300#10, x, f⟩ c (opWord st b) = true) (hP : P = opWord p 0x00#8) :
    st = p ∧ x c b = true := by
  obtain ⟨⟨hst, -⟩, hx⟩ := (hits_iff (k := 0x00#8) hP rfl).mp h
  exact ⟨hst, hx⟩

/-- A row that hits a word is the row that is decoded: its operation has that word, is well-formed and applies. -/
theorem decode_of_hits {c : RowCtx} {w : BitVec 10} {r : OpRow} (hr : r ∈ opTable) (h : r.hits c w = true) :
    decode c (.sync10 w) = .ok (r.make (wordByte w)) := by
  rw [← opWord_of_word w] at h ⊢
  generalize wordByte w = b at h ⊢
  generalize wordState w = st at h ⊢
  rw [wordByte_opWord]
  simp only [opTable, List.mem_cons, List.not_mem_nil, or_false] at hr
  rcases hr with rfl | rfl | rfl | rfl | rfl | rfl | rfl | rfl | rfl | rfl
  · obtain ⟨rfl, rfl⟩ := eq_of_hits_word (p := .seek1) (q := 0xAB#8) h rfl
    exact decode_encode (i := .seek1Hdr1) rfl rfl
  · obtain ⟨rfl, hx⟩ := of_hits_state (p := .seek1) h rfl
    exact decode_encode (i := .seek1Skip b) hx rfl
  · obtain ⟨rfl, rfl⟩ := eq_of_hits_word (p := .seek2) (q := 0xCD#8) h rfl
    exact decode_encode (i := .seek2Hdr2) rfl rfl
  · obtain ⟨rfl, hx⟩ := of_hits_state (p := .seek2) h rfl
    exact decode_encode (i := .seek2Miss b) hx rfl
  · obtain ⟨⟨rfl, -⟩, hx⟩ := (hits_iff (p := .len) (q := 0x00#8) (k := 0xFE#8) rfl rfl).mp h
    exact decode_encode (i := .lenBad b) hx rfl
  · obtain ⟨rfl, hx⟩ := of_hits_state (p := .len) h rfl
    exact decode_encode (i := .lenOk b) hx rfl
  · obtain ⟨rfl, hx⟩ := of_hits_state (p := .payload) h rfl
    exact decode_encode (i := .payloadData b) rfl hx
  · obtain ⟨rfl, hx⟩ := of_hits_state (p := .payload) h rfl
    exact decode_encode (i := .payloadCkhi b) rfl hx
  · obtain ⟨rfl, hx⟩ := of_hits_state (p := .payload) h rfl
    exact decode_encode (i := .payloadCkloOk b) rfl hx
  · obtain ⟨rfl, hx⟩ := of_hits_state (p := .payload) h rfl
    exact decode_encode (i := .payloadCkloBad b) rfl hx

/-- The ten rows have ten operations. -/
theorem opTable_make_nodup (b : Byte) : (opTable.map (·.make b)).Nodup := by
  simp [opTable]

/-- No two rows hit one word: they would be decoded to one operation. -/
theorem index_eq_of_hits {c : RowCtx} {w : BitVec 10} {j k : Nat} {r r' : OpRow} (hj : opTable[j]? = some r)
    (hk : opTable[k]? = some r') (h : r.hits c w = true) (h' : r'.hits c w = true) : j = k := by
  have hmake : r.make (wordByte w) = r'.make (wordByte w) :=
    Except.ok.inj ((decode_of_hits (List.mem_of_getElem? hj) h).symm.trans
      (decode_of_hits (List.mem_of_getElem? hk) h'))
  obtain ⟨hlt, -⟩ := List.getElem?_eq_some_iff.mp hj
  refine (List.getElem?_inj (by simpa using hlt) (opTable_make_nodup (wordByte w))).mp ?_
  rw [List.getElem?_map, List.getElem?_map, hj, hk, Option.map_some, Option.map_some, hmake]

/-- What is decoded is the operation of a row that hits. -/
theorem exists_hits_of_decode {c : RowCtx} {w : BitVec 10} {i : Instr} (h : decode c (.sync10 w) = .ok i) :
    ∃ r ∈ opTable, r.hits c w = true := by
  cases hs : selectRow c w with
  | some r => exact ⟨r, List.mem_of_find?_eq_some hs, List.find?_some (p := fun r : OpRow => r.hits c w) hs⟩
  | none => simp [decode, hs] at h

/-- Within the bounds of 10_state.md R26(a) every word is decoded. -/
theorem exists_decode {c : RowCtx} {w : BitVec 10} (h : wordState w = .payload → c.cnt.toNat + 1 ≤ c.n.toNat) :
    ∃ i, decode c (.sync10 w) = .ok i := by
  rw [← opWord_of_word w]
  cases hst : wordState w with
  | seek1 => exact ⟨_, decode_seek1 c _⟩
  | seek2 => exact ⟨_, decode_seek2 c _⟩
  | len => exact ⟨_, decode_len c _⟩
  | payload =>
    have hc := h hst
    rcases Nat.lt_trichotomy (c.cnt.toNat + 2) c.n.toNat with hlt | heq | hgt
    · exact ⟨_, decode_data _ hlt⟩
    · exact ⟨_, decode_ckHi _ heq⟩
    · exact ⟨_, decode_ckLo _ (by omega)⟩

/-- A length byte below 2 is 0 or 1 (R71). -/
theorem lt_nMin_iff (b : Byte) : b.toNat < Config.nMin ↔ b = 0x00#8 ∨ b = 0x01#8 := by
  simp only [Config.nMin, ← BitVec.toNat_inj, BitVec.toNat_ofNat]
  omega

end Sys2Proof

namespace Sys2Proof.Proofs

open Sys2Proof.Machine

/-- Settles O20, by cases on the operation. -/
theorem decodeInvertsEncode : Obligations.DecodeInvertsEncode := fun _ _ hw ha => decode_encode hw ha

/-- Settles O21, by cases on the word's state. -/
theorem encodeInvertsDecode : Obligations.EncodeInvertsDecode := fun _ _ _ h => encode_of_decode h

/-- Settles O19: a row that hits is the one decoded, so two rows that hit have one operation and are one row. -/
theorem operationMapSelectsOneRow : Obligations.OperationMapSelectsOneRow := by
  refine ⟨fun c w h => ?_, fun c b => ⟨decode_seek1 c b, decode_seek2 c b, ?_, decode_data b, decode_ckHi b, ?_, ?_⟩,
    fun c => ⟨rfl, rfl, fun _ => rfl⟩⟩
  · obtain ⟨i, hi⟩ := exists_decode fun hst => (h hst).2
    obtain ⟨r, hr, hhit⟩ := exists_hits_of_decode hi
    obtain ⟨k, hk⟩ := List.mem_iff_getElem?.mp hr
    obtain ⟨hlt, -⟩ := List.getElem?_eq_some_iff.mp hk
    exact ⟨k, hlt, ⟨r, hk, hhit, decode_of_hits hr hhit⟩, fun j r' hj h' => index_eq_of_hits hj hk h' hhit⟩
  · simp only [decode_len, lt_nMin_iff]
  · intro hc hs
    rw [decode_ckLo b hc, if_pos ((eq_be16_iff _ _ _).mpr hs)]
  · intro hc hs
    rw [decode_ckLo b hc, if_neg (mt (eq_be16_iff _ _ _).mp hs)]

/-- Settles O18: each word is the encoding of its row's operation. -/
theorem tableWordsDecode : Obligations.TableWordsDecode :=
  ⟨decode_encode (i := .seek1Hdr1) rfl rfl, decode_encode (i := .seek1Skip 0xCD#8) rfl rfl,
    decode_encode (i := .seek2Hdr2) rfl rfl, decode_encode (i := .lenBad 0x01#8) rfl rfl,
    decode_encode (i := .lenOk 0x02#8) rfl rfl, decode_encode (i := .payloadData 0x5F#8) rfl rfl,
    decode_encode (i := .payloadCkloOk 0xDA#8) rfl rfl, decode_encode (i := .payloadCkloBad 0xDB#8) rfl rfl, rfl, rfl⟩

end Sys2Proof.Proofs
end

section
/-! Command frames are valid frames (30_encoding.md R91, R92). -/

namespace Sys2Proof

/-- The high byte of a 16-bit value, the first of the checksum field (R72). -/
theorem ofNat_highByte (n : Nat) : (BitVec.ofNat 16 n).extractLsb' 8 8 = BitVec.ofNat 8 (n / 256) := by
  apply BitVec.eq_of_toNat_eq
  simp only [BitVec.extractLsb'_toNat, BitVec.toNat_ofNat, Nat.shiftRight_eq_div_pow]
  omega

/-- The low byte of a 16-bit value, the second of the checksum field (R72). -/
theorem ofNat_lowByte (n : Nat) : (BitVec.ofNat 16 n).extractLsb' 0 8 = BitVec.ofNat 8 (n % 256) := by
  apply BitVec.eq_of_toNat_eq
  simp only [BitVec.extractLsb'_toNat, BitVec.toNat_ofNat, Nat.shiftRight_zero]
  omega

/-- The checksum of a one-byte payload is 379 above the byte (R91). -/
theorem frameChecksum_singleton (op : Byte) : frameChecksum [op] = BitVec.ofNat 16 (op.toNat + 379) :=
  congrArg (BitVec.ofNat 16) (Nat.add_comm 379 op.toNat)

/-- A command frame is the valid frame of its opcode. -/
theorem commandFrame_eq_frameBytes (op : Byte) : commandFrame op = frameBytes [op] := by
  rw [frameBytes, frameWith, frameChecksum_singleton, ofNat_highByte, ofNat_lowByte]
  rfl

end Sys2Proof

namespace Sys2Proof.Proofs

open Sys2Proof.Machine

/-- Settles O22: a command frame runs as the valid frame it is. -/
theorem commandFramesAreValidFrames : Obligations.CommandFramesAreValidFrames := by
  refine ⟨fun op => ⟨commandFrame_eq_frameBytes op, by have := op.isLt; omega⟩, fun op s h => ?_, rfl, rfl⟩
  obtain ⟨t, ht, a⟩ := run_frameBytes [op] h (show 1 + 2 ≤ 255 by decide)
  rw [commandFrame_eq_frameBytes]
  exact ⟨t, ht, a.st⟩

end Sys2Proof.Proofs
end

section
/-! Equality of values as numbers (30_encoding.md R85). -/

namespace Sys2Proof.Machine

/-- A number written at an exponent no greater than its own. -/
theorem toRat_eq_of_le {d : Decimal} {m : Int} (h : m ≤ d.exp) :
    d.toRat = ((d.signed * 10 ^ (d.exp - m).toNat : Int) : ℚ) * 10 ^ m := by
  have hexp : d.exp = ((d.exp - m).toNat : Int) + m := by omega
  calc d.toRat
      = d.signed * (10 : ℚ) ^ (((d.exp - m).toNat : Int) + m) := by rw [← hexp, Decimal.toRat]
    _ = ((d.signed * 10 ^ (d.exp - m).toNat : Int) : ℚ) * 10 ^ m := by
      rw [zpow_add₀ (by norm_num), zpow_natCast]
      push_cast
      ring

end Sys2Proof.Machine

namespace Sys2Proof.Proofs

open Sys2Proof.Machine

/-- Settles O57: at the lesser of the two exponents both numbers are integers times one power of ten. -/
theorem valueEqualityIsNumeric : Obligations.ValueEqualityIsNumeric := by
  intro a b
  have hpow : (10 : ℚ) ^ min a.exp b.exp ≠ 0 := zpow_ne_zero _ (by norm_num)
  rw [toRat_eq_of_le (min_le_left a.exp b.exp), toRat_eq_of_le (min_le_right a.exp b.exp), mul_left_inj' hpow,
    Int.cast_inj, Decimal.sameNumber, decide_eq_true_eq]

end Sys2Proof.Proofs
end

section
/-! Displays that show an overload marker (41_payload_decode.md R145, R154). -/

namespace Sys2Proof.Machine

/-- A marker is an overload and has no value (R145). -/
theorem readValue_of_mem {P : Profile} {t : ByteString} (h : t ∈ P.overloadMarkers) :
    readValue P t = some (true, none) := if_pos ((isOverloadText_iff P t).mpr h)

/-- A payload of a known mode whose display text is a marker is decoded as an overload with no value (R154). -/
theorem decodePayload_of_marker {P : Profile} {p t : ByteString} {f : PayloadFields} (hf : payloadFields p = some f)
    (hmode : f.modeIndex.toNat < P.modes.length) (ht : displayText f.display = some t)
    (hm : t ∈ P.overloadMarkers) :
    ∃ m, decodePayload P p = .ok m ∧ m.isOverload = true ∧ m.value = none := by
  have hname : modeName P f.modeIndex = some P.modes[f.modeIndex.toNat] := List.getElem?_eq_getElem hmode
  simp only [decodePayload, hf, hname, ht, readValue_of_mem hm]
  exact ⟨_, rfl, rfl, rfl⟩

/-- Seven display bytes between the mode and range bytes and five more are the display field (R78). -/
theorem exists_payloadFields {i r : Byte} {d rest : ByteString} (hd : d.length = 7) (hr : 5 ≤ rest.length) :
    ∃ f, payloadFields ([i, r] ++ d ++ rest) = some f ∧ f.modeIndex = i ∧ f.display = d := by
  have hlen : 14 ≤ ([i, r] ++ d ++ rest).length := by
    simp only [List.length_append, List.length_cons, List.length_nil]
    omega
  obtain ⟨f, hf⟩ := Option.isSome_iff_exists.mp ((payloadFields_isSome _).mpr hlen)
  obtain ⟨d2, d3, d4, d5, d6, d7, d8, rest', hp, -⟩ := payloadFields_eq_some hf
  refine ⟨f, hf, (List.cons.inj hp).1.symm, ?_⟩
  rw [display_eq hf]
  exact List.take_left' hd

/-- A text of ASCII bytes without a space, padded with spaces, is displayed as itself (R144). -/
theorem displayText_pad {t : ByteString} (k : Nat) (h : ∀ c ∈ t, c.toNat < 0x80 ∧ c ≠ 0x20#8) :
    displayText (t ++ List.replicate k 0x20#8) = some t := by
  refine displayText_eq_some.mpr ⟨fun c hc => ?_, ?_⟩
  · rcases List.mem_append.mp hc with hc | hc
    · exact (h c hc).1
    · rw [List.eq_of_mem_replicate hc]
      decide
  · have ht : t.filter (· ≠ 0x20#8) = t := List.filter_eq_self.mpr fun c hc => decide_eq_true (h c hc).2
    rw [List.filter_append, ht, List.filter_replicate_of_neg (by decide), List.append_nil]

/-- The default markers fit the display and are written in ASCII without spaces (R88). -/
theorem defaultOverloadMarkers_text :
    ∀ mk ∈ defaultOverloadMarkers, mk.length ≤ 7 ∧ ∀ c ∈ mk, c.toNat < 0x80 ∧ c ≠ 0x20#8 := by decide

end Sys2Proof.Machine

namespace Sys2Proof.Proofs

open Sys2Proof.Machine

/-- Settles O59: a padded marker fills the display field, and its text is the marker. -/
theorem defaultMarkersAreOverload : Obligations.DefaultMarkersAreOverload := by
  intro P hP
  refine ⟨fun mk hmk i r rest hi hr => ?_, ?_⟩
  · obtain ⟨hlen, htext⟩ := defaultOverloadMarkers_text mk hmk
    have hd : (mk ++ List.replicate (7 - mk.length) 0x20#8).length = 7 := by
      rw [List.length_append, List.length_replicate]
      omega
    obtain ⟨f, hf, rfl, hfd⟩ := exists_payloadFields (i := i) (r := r) hd hr
    rw [List.append_assoc [f.modeIndex, r] mk]
    exact decodePayload_of_marker hf hi (hfd ▸ displayText_pad _ htext) (hP ▸ hmk)
  · rw [isOverloadText, hP]
    decide

end Sys2Proof.Proofs
end

section
/-! One frame from SEEK1, with the right checksum or a wrong one, after noise or before another frame
(40_frame_sync.md R102, R113, R114). -/

namespace Sys2Proof.Machine

/-- The checksum field as a number (30_encoding.md R72). -/
theorem frameChecksum_toNat (p : ByteString) :
    (frameChecksum p).toNat = (0xAB + 0xCD + (p.length + 2) + byteSum p) % 2 ^ 16 := BitVec.toNat_ofNat ..

/-- A checksum field is right exactly when it is the big-endian sum (R72). -/
theorem frameChecksum_eq_be16_iff (p : ByteString) (hi lo : Byte) :
    frameChecksum p = be16 hi lo
      ↔ hi.toNat * 256 + lo.toNat = (0xAB + 0xCD + (p.length + 2) + byteSum p) % 2 ^ 16 := by
  rw [eq_be16_iff, frameChecksum_toNat, eq_comm]

/-- A frame is all of it up to the checksum's high byte, and then its last byte. -/
theorem frame_eq_append_last (hdr p : ByteString) (hi lo : Byte) :
    hdr ++ p ++ [hi, lo] = (hdr ++ p ++ [hi]) ++ [lo] := by
  rw [List.append_assoc _ [hi] [lo]]
  rfl

/-- A frame cut anywhere before its last byte gives no event, whatever its checksum field. -/
theorem run_frame_take {s : State} (p : ByteString) (hi lo : Byte) (h : s.st = .seek1) (hp : p.length + 2 ≤ 255)
    {k : Nat} (hk : k < p.length + 5) :
    ∃ u, run (feed (([0xAB#8, 0xCD#8, BitVec.ofNat 8 (p.length + 2)] ++ p ++ [hi, lo]).take k)) s
      = .next (u, []) := by
  obtain ⟨t, ht, -⟩ := run_toLast p hi h hp
  have hfront : k ≤ ([0xAB#8, 0xCD#8, BitVec.ofNat 8 (p.length + 2)] ++ p ++ [hi]).length := by
    simp only [List.length_append, List.length_cons, List.length_nil]
    omega
  rw [frame_eq_append_last, List.take_append_of_le_length hfront, feed, List.map_take]
  exact run_take_quiet ht k

/-- From SEEK1, a frame whose checksum field is not the payload's checksum gives CHECKSUM_ERROR with both sums and
nothing else (R114). -/
theorem run_frame_wrongChecksum {s : State} (p : ByteString) (hi lo : Byte) (h : s.st = .seek1)
    (hp : p.length + 2 ≤ 255) (hck : frameChecksum p ≠ be16 hi lo) :
    ∃ t, run (feed ([0xAB#8, 0xCD#8, BitVec.ofNat 8 (p.length + 2)] ++ p ++ [hi, lo])) s
        = .next (t, [.checksumError (be16 hi lo) (frameChecksum p)]) ∧ t.st = .seek1 := by
  obtain ⟨u, hu, a⟩ := run_toLast p hi h hp
  have hn : u.n.toNat - 2 = p.length := by rw [a.n, Nat.add_sub_cancel]
  have hlast := stepInput_ckLo a.st (by rw [a.n]; omega) (by rw [a.cnt, a.n]) lo
  rw [hn, a.ckHi, a.sum, if_neg hck] at hlast
  rw [frame_eq_append_last, feed_append]
  exact ⟨_, run_append hu (run_cons_next (es := []) hlast rfl), rfl⟩

/-- In SEEK1, bytes other than 0xAB are dropped without an event (R102). -/
theorem run_noise (bs : ByteString) {s : State} (h : s.st = .seek1) (hbs : ∀ b ∈ bs, b ≠ 0xAB#8) :
    ∃ t, run (feed bs) s = .next (t, []) ∧ t.st = .seek1 := by
  induction bs generalizing s with
  | nil => exact ⟨s, rfl, h⟩
  | cons b bs ih =>
    obtain ⟨hb, hbs⟩ := List.forall_mem_cons.mp hbs
    obtain ⟨t, ht, hst⟩ := ih (s := s.quiet) h hbs
    exact ⟨t, run_cons_next (es := []) (stepInput_skip h hb) ht, hst⟩

end Sys2Proof.Machine

namespace Sys2Proof.Proofs

open Sys2Proof.Machine

/-- Settles O32: the payload's bytes are buffered and summed by induction (`run_toLast`), and the last byte finds the
sum equal to the checksum field; a shorter stream ends before that byte. -/
theorem validFrameYieldsOneFrame : Obligations.ValidFrameYieldsOneFrame := by
  intro s p hi lo h hp hck
  obtain ⟨t, ht, a⟩ := run_frame p hi lo h hp ((frameChecksum_eq_be16_iff p hi lo).mpr hck).symm
  exact ⟨⟨t, ht, a.st⟩, fun k hk => run_frame_take p hi lo h hp hk⟩

/-- Settles O33: the last byte finds another sum, and the next frame starts from the SEEK1 that this one leaves. -/
theorem corruptedFrameResynchronises : Obligations.CorruptedFrameResynchronises := by
  intro s p q hi lo h hp hq hck
  have hbad := run_frame_wrongChecksum p hi lo h hp (mt (frameChecksum_eq_be16_iff p hi lo).mp hck)
  rw [be16_eq] at hbad
  obtain ⟨t, ht, hst⟩ := hbad
  obtain ⟨u, hu, a⟩ := run_frameBytes q hst hq
  refine ⟨⟨t, ht, hst⟩, fun k hk => run_frame_take p hi lo h hp hk, u, ?_, a.st⟩
  rw [feed_append]
  exact run_append ht hu

/-- Settles O35: the noise leaves SEEK1, where the frame is found. -/
theorem noiseThenFrameFound : Obligations.NoiseThenFrameFound := by
  intro s noise p h hnoise hp
  obtain ⟨u, hu, hst⟩ := run_noise noise h hnoise
  obtain ⟨t, ht, a⟩ := run_frameBytes p hst hp
  rw [feed_append]
  exact ⟨t, run_append hu ht, a.st⟩

end Sys2Proof.Proofs
end

section
/-! The operations of SEEK1, SEEK2 and LEN, and CLEAR: which words select them and what they write
(40_frame_sync.md R101 to R106, R111). -/

namespace Sys2Proof

/-- A word under a mask that fixes its state bits, split into its state and its byte (30_encoding.md R74). -/
theorem opWord_and_eq_iff {st p : St} {b k q : Byte} :
    opWord st b &&& opWord .payload k = opWord p q ↔ st = p ∧ b &&& k = q :=
  (masked_word_eq _ _ _ _ _ _).trans (and_congr_left fun _ => code_and_three_eq_code)

/-- The words of LEN.BAD are those of LEN with a byte below 2 (R71). -/
theorem and_lenBad_mask_iff (w : BitVec 10) :
    w &&& 0x3FE#10 = 0x200#10 ↔ wordState w = .len ∧ (wordByte w).toNat < Config.nMin := by
  rw [← byte_and_fe, ← opWord_and_eq_iff, opWord_of_word]
  rfl

end Sys2Proof

namespace Sys2Proof.Machine

/-- The input that the pins present is taken (10_state.md R36). -/
theorem portCycle_of_input {pins : Pins} {i : Input} (h : pins.input = some i) (s : State) :
    portCycle pins s = stepInput i s := by
  unfold portCycle
  rw [h]

/-- Clear wins over a byte (60_exceptions.md R203). -/
theorem pins_input_clear {pins : Pins} (hr : pins.rst = false) (hc : pins.clear = true) :
    pins.input = some .clear := by
  simp [Pins.input, hr, hc]

end Sys2Proof.Machine

namespace Sys2Proof.Proofs

open Sys2Proof.Machine

/-- Settles O5: the stray 0xCD is dropped, and the header follows. -/
theorem skipDropsByte : Obligations.SkipDropsByte :=
  ⟨fun _ b hb => decode_encode (i := .seek1Skip b) (bne_iff_ne.mpr hb) rfl, fun _ _ => ⟨0#2, rfl⟩,
    fun s h => ⟨0#2, run_cons_next (es := []) (stepInput_skip h (by decide)) (run_header (s := s.quiet) h)⟩⟩

/-- Settles O6: the mask leaves one word, and the sum is added to modulo 2^16. -/
theorem hdr2EntersLen : Obligations.Hdr2EntersLen := by
  refine ⟨fun c w hw => ?_, fun s => ⟨0#2, ?_⟩, fun s t hs h => ?_⟩
  · obtain rfl : w = 0x1CD#10 := BitVec.and_allOnes.symm.trans hw
    exact decode_encode (i := .seek2Hdr2) rfl rfl
  · have hsum : addSum s.sum 0xCD#8 = BitVec.ofNat 16 (s.sum.toNat + 0xCD) := addSum_eq s.sum 0xCD#8
    rw [← hsum]
    rfl
  · cases h
    show addSum s.sum 0xCD#8 = 0x0178#16
    rw [hs]
    rfl

/-- Settles O7: the second 0xAB is consumed in SEEK2, so the 0xCD after it is taken in SEEK1 and dropped. -/
theorem missConsumesByte : Obligations.MissConsumesByte :=
  ⟨fun _ b hb => decode_encode (i := .seek2Miss b) (bne_iff_ne.mpr hb) rfl, fun _ _ => ⟨0#2, rfl⟩,
    fun _ h => ⟨0#2, run_cons_next (es := []) (stepInput_hdr1 h)
      (run_cons_next (es := []) (stepInput_miss rfl (by decide))
        (run_cons_next (es := []) (stepInput_skip rfl (by decide)) rfl))⟩⟩

/-- Settles O8: LEN.OK leaves `cnt` at 0, so `n` alone says how many payload bytes follow. -/
theorem lenOkStartsPayload : Obligations.LenOkStartsPayload := by
  refine ⟨fun c b hb => decode_encode (i := .lenOk b) (decide_eq_true hb) rfl, fun b s => ⟨0#2, ?_⟩,
    fun b s t h => ?_, fun b s t h => ?_⟩
  · rw [← addSum_eq]
    rfl
  · cases h
    exact decode_ckHi b rfl
  · cases h
    exact ⟨fun c hc => decode_data b (show c.toNat + 2 < 255 by omega), decode_ckHi b rfl⟩

/-- Settles O9: under the mask a word is in LEN with a byte below 2. -/
theorem lenBadReportsLength : Obligations.LenBadReportsLength := by
  refine ⟨fun c w hw => ?_, fun _ _ => rfl⟩
  obtain ⟨hst, hb⟩ := (and_lenBad_mask_iff w).mp hw
  refine ⟨?_, (lt_nMin_iff _).mp hb⟩
  have hd := decode_len c (wordByte w)
  rwa [← hst, opWord_of_word, if_pos hb] at hd

/-- Settles O3: CLEAR writes the state register, and the pins present it before a byte. -/
theorem clearReturnsToSeek1 : Obligations.ClearReturnsToSeek1 :=
  ⟨fun _ => rfl, fun _ => ⟨0#2, rfl⟩, fun _ s hr hc => portCycle_of_input (pins_input_clear hr hc) s⟩

/-- Settles O4: the mask leaves one word, and the sum is loaded. -/
theorem hdr1LoadsSum : Obligations.Hdr1LoadsSum := by
  refine ⟨fun c w hw => ?_, fun _ => ⟨0#2, rfl⟩⟩
  obtain rfl : w = 0x0AB#10 := BitVec.and_allOnes.symm.trans hw
  exact decode_encode (i := .seek1Hdr1) rfl rfl

end Sys2Proof.Proofs
end

section
/-! The operations of PAYLOAD: which rows apply and what they write (40_frame_sync.md R107 to R110). -/

namespace Sys2Proof.Machine

/-- PAYLOAD.DATA completes when its index exists (R107). -/
theorem exec_payloadData_of_lt {s : State} (b : Byte) (h : s.cnt.toNat < 255) :
    exec (.payloadData b) s = .next { (s.pushed b).quiet with sum := addSum s.sum b } := by
  show execPayloadData b s = _
  rw [execPayloadData, pushByte_of_lt b h]

/-- PAYLOAD.CKHI completes when its index exists (R108). -/
theorem exec_payloadCkhi_of_lt {s : State} (b : Byte) (h : s.cnt.toNat < 255) :
    exec (.payloadCkhi b) s = .next (s.pushed b).quiet := by
  show execPayloadCkhi b s = _
  rw [execPayloadCkhi, pushByte_of_lt b h]

/-- A frame's last byte makes `cnt` equal to `n`. -/
theorem pushed_last {s : State} (b : Byte) (hc : s.cnt.toNat + 1 = s.n.toNat) :
    s.pushed b = { s with buf := s.buf.write s.cnt.toNat b, cnt := s.n } := by
  rw [State.pushed, cnt_succ_eq hc]

end Sys2Proof.Machine

namespace Sys2Proof.Proofs

open Sys2Proof.Machine

/-- Settles O10: the row is decoded only where it applies, which `n` = 2 rules out. -/
theorem dataBuffersAndSums : Obligations.DataBuffersAndSums := by
  refine ⟨fun c b hc => decode_data b hc, fun c b hn hd => ?_, fun b s hc => ⟨0#2, ?_⟩⟩
  · obtain ⟨-, -, ha⟩ := encode_of_decode hd
    have hlt : c.cnt.toNat + 2 < c.n.toNat := (atData_iff c).mp ha
    rw [hn] at hlt
    exact absurd hlt (Nat.not_lt.mpr (Nat.le_add_left 2 _))
  · rw [exec_payloadData_of_lt b hc, ← addSum_eq, ← cnt_succ]
    rfl

/-- Settles O11: with `n` = 2 the counter is at `n - 2` from the start. -/
theorem ckhiBuffersWithoutSum : Obligations.CkhiBuffersWithoutSum := by
  refine ⟨fun c b hc => decode_ckHi b hc, fun c b hn hc => decode_ckHi b (by rw [hn, hc]; rfl),
    fun b s hc => ⟨0#2, ?_⟩⟩
  rw [exec_payloadCkhi_of_lt b hc, ← cnt_succ]
  rfl

/-- Settles O12: the received checksum is the running sum. -/
theorem ckloOkEmitsFrame : Obligations.CkloOkEmitsFrame := by
  intro b s hn hc hsum
  have hck : s.sum = be16 (s.bufRead (s.n.toNat - 2)) b := (eq_be16_iff _ _ _).mpr hsum
  refine ⟨?_, ?_, fun h2 => by rw [h2]; rfl⟩
  · rw [decode_ckLo b hc]
    exact congrArg Except.ok (if_pos hck)
  · have he := (execPayloadCklo hn hc b).1
    rw [← hck, pushed_last b hc, len_sub_two hn] at he
    exact he

/-- Settles O13: the received checksum is not the running sum. -/
theorem ckloBadReportsChecksum : Obligations.CkloBadReportsChecksum := by
  intro b s hn hc hsum
  have hck : s.sum ≠ be16 (s.bufRead (s.n.toNat - 2)) b := mt (eq_be16_iff _ _ _).mp hsum
  refine ⟨?_, ?_⟩
  · rw [decode_ckLo b hc]
    exact congrArg Except.ok (if_neg hck)
  · have he := (execPayloadCklo hn hc b).2
    rw [be16_eq, pushed_last b hc] at he
    exact he

end Sys2Proof.Proofs
end

section
/-! Steps from the states of 10_state.md R26: every PAYLOAD byte is stored, every input but a DECODE with no profile
has a successor, and a frame ends after its bytes (40_frame_sync.md R100, R115, R117). -/

namespace Sys2Proof.Machine

/-- In PAYLOAD a byte before the last is stored, and the frame goes on without an event (R107, R108). -/
theorem stepInput_payload_stays {s : State} (h : s.st = .payload) (hc : s.cnt.toNat + 1 < s.n.toNat) (b : Byte) :
    ∃ t, stepInput (.byte b) s = .next t ∧ StoredByte b s t ∧ t.st = .payload ∧ t.event? = none := by
  have hlt := s.n.isLt
  have hroom : s.cnt.toNat < 255 := by omega
  rcases Nat.lt_or_eq_of_le (show s.cnt.toNat + 2 ≤ s.n.toNat from hc) with hc | hc
  · exact ⟨_, stepInput_data h hc b, ⟨hroom, rfl, rfl, rfl, rfl⟩, h, rfl⟩
  · exact ⟨_, stepInput_ckHi h hc b, ⟨hroom, rfl, rfl, rfl, rfl⟩, h, rfl⟩

/-- In PAYLOAD the last byte is stored, and the frame ends with an event (R109, R110). -/
theorem stepInput_payload_ends {s : State} (h : s.st = .payload) (hn : 2 ≤ s.n.toNat)
    (hc : s.cnt.toNat + 1 = s.n.toNat) (b : Byte) :
    ∃ t, stepInput (.byte b) s = .next t ∧ StoredByte b s t ∧ t.st = .seek1 ∧ t.event? ≠ none := by
  have hlt := s.n.isLt
  exact ⟨_, stepInput_ckLo h hn hc b, ⟨by omega, rfl, rfl, rfl, rfl⟩, rfl, nofun⟩

/-- The counter after a stored byte. -/
theorem StoredByte.cnt_toNat {b : Byte} {s t : State} (h : StoredByte b s t) : t.cnt.toNat = s.cnt.toNat + 1 := by
  rw [h.cnt, pushed_cnt_toNat b h.room]

/-- In PAYLOAD fewer bytes than the frame still needs leave it waiting, without an event. -/
theorem run_payload_stays (bs : ByteString) {s : State} (h : s.st = .payload)
    (hc : s.cnt.toNat + bs.length < s.n.toNat) :
    ∃ t, run (feed bs) s = .next (t, []) ∧ t.st = .payload ∧ t.n = s.n
      ∧ t.cnt.toNat = s.cnt.toNat + bs.length := by
  induction bs generalizing s with
  | nil => exact ⟨s, rfl, h, rfl, rfl⟩
  | cons b bs ih =>
    rw [List.length_cons] at hc ⊢
    obtain ⟨u, hu, stored, hst, hev⟩ := stepInput_payload_stays h (by omega) b
    have hcnt := stored.cnt_toNat
    obtain ⟨t, ht, htst, hn, htcnt⟩ := ih hst (by rw [hcnt, stored.n]; omega)
    refine ⟨t, ?_, htst, hn.trans stored.n, by omega⟩
    simpa [hev] using run_cons_next hu ht

/-- In PAYLOAD exactly the bytes the frame still needs lead to SEEK1. -/
theorem run_payload_ends {bs : ByteString} {s : State} (h : s.st = .payload) (hn : 2 ≤ s.n.toNat)
    (hne : bs ≠ []) (hc : s.cnt.toNat + bs.length = s.n.toNat) :
    ∃ t es, run (feed bs) s = .next (t, es) ∧ t.st = .seek1 := by
  obtain ⟨front, b, rfl⟩ := (List.eq_nil_or_concat bs).resolve_left hne
  rw [List.concat_eq_append, List.length_append, List.length_singleton] at hc
  obtain ⟨u, hu, hst, hun, hcnt⟩ := run_payload_stays front h (by omega)
  obtain ⟨t, ht, -, htst, -⟩ := stepInput_payload_ends hst (by rwa [hun]) (by rw [hun]; omega) b
  rw [List.concat_eq_append, feed_append]
  exact ⟨t, _, run_append hu (run_cons_next ht rfl), htst⟩

/-- A legal length byte starts a frame of that many bytes (R105). -/
theorem stepInput_len_starts {s : State} (h : s.st = .len) {N : Byte} (hN : 2 ≤ N.toNat) :
    ∃ t, stepInput (.byte N) s = .next t ∧ t.st = .payload ∧ t.n = N ∧ t.cnt.toNat = 0 :=
  ⟨_, stepInput_lenOk h hN, rfl, rfl, rfl⟩

/-- Under R26 every byte has a successor: a row of the operation map applies (R100). -/
theorem exists_stepInput_byte {s : State} (h : s.RegInv) (b : Byte) : ∃ t, stepInput (.byte b) s = .next t := by
  cases hst : s.st with
  | seek1 => exact ⟨_, stepInput_seek1 hst b⟩
  | seek2 => exact ⟨_, stepInput_seek2 hst b⟩
  | len => exact ⟨_, stepInput_len hst b⟩
  | payload =>
    obtain ⟨hn, -, hc⟩ := h.payload_bounds hst
    rcases Nat.lt_or_eq_of_le hc with hc | hc
    · obtain ⟨t, ht, -⟩ := stepInput_payload_stays hst hc b
      exact ⟨t, ht⟩
    · obtain ⟨t, ht, -⟩ := stepInput_payload_ends hst hn hc b
      exact ⟨t, ht⟩

/-- DECODE before the profile is loaded is refused (70_reset_and_hazards.md R232). -/
theorem execDecode_of_no_profile {s : State} (p : ByteString) (h : s.profile = none) :
    execDecode p s = .refused .profileNotLoaded := by
  rw [execDecode, h]

/-- Under R26 an input has a successor, or it is a DECODE refused for want of a profile. -/
theorem stepInput_of_regInv {s : State} (h : s.RegInv) (i : Input) :
    (∃ t, stepInput i s = .next t)
      ∨ stepInput i s = .refused .profileNotLoaded ∧ s.profile = none ∧ ∃ p, i = .decode p := by
  cases i with
  | byte b => exact .inl (exists_stepInput_byte h b)
  | clear => exact .inl ⟨_, rfl⟩
  | reset => exact .inl ⟨_, rfl⟩
  | decode p =>
    cases hP : s.profile with
    | some P => exact .inl ⟨_, execDecode_of_profile p hP⟩
    | none => exact .inr ⟨execDecode_of_no_profile p hP, rfl, p, rfl⟩

/-- Under R26 a step has a successor, or it takes a DECODE refused for want of a profile. -/
theorem step_of_regInv {s : State} (h : s.RegInv) :
    (∃ t, step s = .next t)
      ∨ step s = .refused .profileNotLoaded ∧ s.profile = none ∧ ∃ p rest, s.inputs = .decode p :: rest := by
  cases hin : s.inputs with
  | nil => exact .inl ⟨_, step_idle hin⟩
  | cons i rest =>
    rw [step_cons hin]
    rcases stepInput_of_regInv (h.congr (sameSync_setInputs s rest)) i with ht | ⟨hr, hP, p, rfl⟩
    · exact .inl ht
    · exact .inr ⟨hr, hP, p, rest, rfl⟩

end Sys2Proof.Machine

namespace Sys2Proof.Proofs

open Sys2Proof.Machine

/-- Settles O25: the one input without a successor is a DECODE with no profile. -/
theorem everyInputHasASuccessor : Obligations.EveryInputHasASuccessor := by
  intro s i h hi
  rcases stepInput_of_regInv h i with ht | ⟨-, hP, p, rfl⟩
  · exact ht
  · exact absurd hP (hi.resolve_right fun hne => hne p rfl)

/-- Settles O26: a step that has no successor is that refusal. -/
theorem stepsStopOnlyWithoutProfile : Obligations.StepsStopOnlyWithoutProfile := by
  intro s h
  rcases step_of_regInv h with ⟨t, ht⟩ | ⟨hr, hP, hin⟩
  · rw [ht]
    exact ⟨nofun, nofun⟩
  · rw [hr]
    refine ⟨nofun, fun r he => ?_⟩
    cases he
    exact ⟨rfl, hP, hin⟩

/-- Settles O37: a legal length byte leaves `cnt` at 0 with `n` bytes to come. -/
theorem bytesPerFrame : Obligations.BytesPerFrame := by
  refine ⟨fun s N bs h hN hlen => ?_, fun s N h hN => ?_, fun N => N.isLt⟩
  · obtain ⟨u, hu, hust, hun, hucnt⟩ := stepInput_len_starts h hN
    refine ⟨?_, fun k hk => ?_⟩
    · have hne : bs ≠ [] := List.ne_nil_of_length_pos (by omega)
      obtain ⟨t, es, ht, hst⟩ := run_payload_ends hust (by rwa [hun]) hne (by rw [hun]; omega)
      exact ⟨t, _, run_cons_next hu ht, hst⟩
    · cases k with
      | zero => exact ⟨s, [], rfl, by rw [h]; nofun⟩
      | succ k =>
        obtain ⟨t, ht, hst, -⟩ := run_payload_stays (bs.take k) hust (by rw [hun, List.length_take]; omega)
        exact ⟨t, _, run_cons_next hu ht, by rw [hst]; nofun⟩
  · exact ⟨_, _, run_cons_next (stepInput_lenBad h hN) rfl, rfl⟩

/-- Settles O38: a byte before the last leaves PAYLOAD, the last one leaves SEEK1, and each is stored. -/
theorem everyPayloadByteIsData : Obligations.EveryPayloadByteIsData := by
  intro s b h hst
  obtain ⟨hn, -, hc⟩ := h.payload_bounds hst
  rcases Nat.lt_or_eq_of_le hc with hc | hc
  · obtain ⟨t, ht, stored, hts, hev⟩ := stepInput_payload_stays hst hc b
    exact ⟨t, ht, bufRead_write_same stored.buf, stored.cnt_toNat, fun _ => ⟨hts, hev⟩, fun he => by omega⟩
  · obtain ⟨t, ht, stored, hts, hev⟩ := stepInput_payload_ends hst hn hc b
    exact ⟨t, ht, bufRead_write_same stored.buf, stored.cnt_toNat, fun hlt => by omega, fun _ => ⟨hts, hev⟩⟩

end Sys2Proof.Proofs
end

section
/-! The machine's step over its queue, against the spec's fold (40_frame_sync.md R100, 20_memory.md R61). -/

namespace Sys2Proof.Machine

/-- An input whose code the decoder rejects stops the step (log entry 9). -/
theorem stepInput_of_reject {i : Input} {s : State} {r : Reject} (h : decode s.rowCtx (i.code s.st) = .error r) :
    stepInput i s = .fault .noOperation := by
  unfold stepInput
  rw [h]

/-- A step that answers, and then the other steps of a run. -/
theorem core_run_succ {M : Host.Core} {k : Nat} {s t : M.State} (h : M.step s = .next t) :
    M.run (k + 1) s = M.run k t := by
  simp only [Host.Core.run, h]

/-- A step takes the head of the queue as `stepInput` does, and leaves the rest pending. -/
theorem step_pending {i : Input} {s t : State} (h : stepInput i s = .next t) (is : List Input) :
    step { s with inputs := i :: is } = .next { t with inputs := is } := by
  rw [step_cons rfl]
  show stepInput i { s with inputs := is } = _
  rw [stepInput_setInputs, h]

/-- Stepping over a queue is `run` over its inputs. -/
theorem core_run_of_run {is : List Input} {s t : State} {es : List Event} (h : run is s = .next (t, es))
    (rest : List Input) :
    Host.Core.run Sys2Proof.core is.length { s with inputs := is ++ rest } = .next { t with inputs := rest } := by
  induction is generalizing s es with
  | nil =>
    cases h
    rfl
  | cons i is ih =>
    obtain ⟨u, es1, hu, hr, -⟩ := run_cons_inv h
    have hstep : Sys2Proof.core.step { s with inputs := i :: (is ++ rest) } = .next { u with inputs := is ++ rest } :=
      step_pending hu (is ++ rest)
    exact (core_run_succ hstep).trans (ih hr)

end Sys2Proof.Machine

namespace Sys2Proof.Proofs

open Sys2Proof.Machine

/-- Settles O24, by induction on the queue. -/
theorem steppingTheQueueIsRun : Obligations.SteppingTheQueueIsRun := fun _ rest _ _ _ h => core_run_of_run h rest

/-- Settles O23: the decoder's context does not read the queue. -/
theorem stepRunsDecodedInput : Obligations.StepRunsDecodedInput :=
  ⟨fun s _ rest _ hin hd => (step_cons hin).trans (stepInput_of_decode (s := { s with inputs := rest }) hd),
    fun s _ rest _ hin hd => (step_cons hin).trans (stepInput_of_reject (s := { s with inputs := rest }) hd),
    fun _ hin => ⟨0#2, step_idle hin⟩⟩

end Sys2Proof.Proofs
end

section
/-! Which operation an event comes from (40_frame_sync.md R112). -/

namespace Sys2Proof.Machine

/-- The event that an operation can emit (R106, R109, R110). -/
inductive EventOf : Instr → Event → Prop where
  | frame (b : Byte) (p : ByteString) (l : Byte) : EventOf (.payloadCkloOk b) (.frame p l)
  | checksumError (b : Byte) (e c : Half) : EventOf (.payloadCkloBad b) (.checksumError e c)
  | lengthError (b : Byte) : EventOf (.lenBad b) (.lengthError b)

/-- An operation emits no event but its own, and an event always leaves SEEK1. -/
theorem exec_event {i : Instr} {s t : State} {e : Event} (h : exec i s = .next t) (he : t.event? = some e) :
    EventOf i e ∧ t.st = .seek1 := by
  cases i with
  | lenBad b =>
    cases h
    cases he
    exact ⟨.lengthError b, rfl⟩
  | payloadCkloOk b =>
    obtain ⟨-, -, rfl⟩ := execPayloadCkloOk_next h
    cases he
    exact ⟨.frame b _ _, rfl⟩
  | payloadCkloBad b =>
    obtain ⟨-, -, rfl⟩ := execPayloadCkloBad_next h
    cases he
    exact ⟨.checksumError b _ _, rfl⟩
  | payloadData b =>
    obtain ⟨-, rfl⟩ := execPayloadData_next h
    cases he
  | payloadCkhi b =>
    obtain ⟨-, rfl⟩ := execPayloadCkhi_next h
    cases he
  | decode p =>
    obtain ⟨P, -, rfl⟩ := execDecode_next h
    cases he
  | seek1Hdr1 | seek1Skip | seek2Hdr2 | seek2Miss | lenOk | clear | reset =>
    cases h
    cases he

end Sys2Proof.Machine

namespace Sys2Proof.Proofs

open Sys2Proof.Machine

/-- Settles O31: each form of event names its operation. -/
theorem eventsComeFromTheirRows : Obligations.EventsComeFromTheirRows := by
  intro i s t h
  refine ⟨fun p l he => ?_, fun e c he => ?_, fun n he => ?_, fun e he => (exec_event h he).2⟩
  all_goals
    obtain ⟨hrow, -⟩ := exec_event h he
    cases hrow
    exact ⟨_, rfl⟩

end Sys2Proof.Proofs
end

section
/-! The running sum stays below 2^16 (40_frame_sync.md R116). -/

namespace Sys2Proof.Machine

/-- The sum of `k` buffered bytes is at most 255 a byte. -/
theorem bufSum_le (s : State) (k : Nat) : s.bufSum k ≤ 255 * k := by
  have h := byteSum_le (s.bufBytes k)
  rwa [State.bufBytes, List.length_map, List.length_range] at h

theorem byteSum_replicate (k : Nat) (b : Byte) : byteSum (List.replicate k b) = k * b.toNat := by
  rw [byteSum, List.map_replicate, List.sum_replicate, smul_eq_mul]

theorem byteSum_perm {p q : ByteString} (h : p.Perm q) : byteSum p = byteSum q := (h.map BitVec.toNat).sum_eq

/-- A frame's checksum does not see the order of its payload. -/
theorem frameChecksum_perm {p q : ByteString} (h : p.Perm q) : frameChecksum p = frameChecksum q := by
  rw [frameChecksum, frameChecksum, h.length_eq, byteSum_perm h]

/-- A frame's sum is at most 0xFE7A (R116). -/
theorem frameSum_le {p : ByteString} (hp : p.length + 2 ≤ 255) :
    0xAB + 0xCD + (p.length + 2) + byteSum p ≤ 0xFE7A := by
  have := byteSum_le p
  omega

/-- Under R26 a payload byte is added without a wrap: the bytes buffered so far are fewer than 253. -/
theorem sum_add_payload_lt {s : State} (h : s.RegInv) (hst : s.st = .payload)
    (hc : s.cnt.toNat + 2 < s.n.toNat) (b : Byte) : s.sum.toNat + b.toNat < 2 ^ 16 := by
  have hsum := h.sum_in_data hst (by omega)
  have hbytes := bufSum_le s s.cnt.toNat
  have hn := s.n.isLt
  have hb := b.isLt
  omega

end Sys2Proof.Machine

namespace Sys2Proof.Proofs

open Sys2Proof.Machine

/-- Settles O36: at most 253 bytes of at most 255 are added to the header and the length byte. -/
theorem runningSumNeverWraps : Obligations.RunningSumNeverWraps := by
  refine ⟨fun p hp => ⟨frameSum_le hp, ?_⟩, ?_, fun s b h => ⟨fun hst => ?_, fun hst => ?_, fun hst hc => ?_⟩,
    fun p q h => frameChecksum_perm h⟩
  · have hle := frameSum_le hp
    rw [frameChecksum_toNat, Nat.mod_eq_of_lt (by omega)]
  · rw [frameChecksum_toNat, byteSum_replicate, List.length_replicate]
    rfl
  · rw [h.sum_in_seek2 hst]
    decide
  · have hb := b.isLt
    rw [h.sum_in_len hst, BitVec.toNat_ofNat]
    omega
  · exact sum_add_payload_lt h hst hc b

end Sys2Proof.Proofs
end

section
/-! The decimal grammar: what the loop of parse_decimal accepts, and the sign before it (41_payload_decode.md R146). -/

namespace Sys2Proof.Machine

/-- A text after its sign is integer digits, and a point and fraction digits when there is a point (R146). -/
structure NumberParts (body whole frac : ByteString) (point : Bool) : Prop where
  body_eq : body = whole ++ (if point then 0x2E#8 :: frac else [])
  frac_nil : point = false → frac = []
  isDigit : ∀ c ∈ whole ++ frac, isDigit c = true

/-- The loop reads every body of the grammar to its end, with its digits as one integer. -/
theorem NumberParts.scan_eq {body whole frac : ByteString} {point : Bool} (h : NumberParts body whole frac point) :
    scanNumber body ⟨0, 0, 0, false⟩
      = some ⟨digitsValue (whole ++ frac), (whole ++ frac).length, frac.length, point⟩ := by
  obtain ⟨rfl, hf, hd⟩ := h
  obtain ⟨hw, hfr⟩ := List.forall_mem_append.mp hd
  rw [scanNumber_digits whole _ _ hw]
  cases point with
  | false =>
    obtain rfl := hf rfl
    simp [scanNumber, digitsValue]
  | true =>
    have hloop := scanNumber_digits frac [] ⟨digitsValue whole, whole.length, 0, true⟩ hfr
    rw [List.append_nil] at hloop
    rw [if_pos rfl, scanNumber_point frac _ rfl]
    simpa [scanNumber, digitsValue] using hloop

/-- A body that the loop reads to its end is in the grammar: after a run of digits it can take only one point. -/
theorem exists_numberParts {body : ByteString} {a : Scan} (h : scanNumber body ⟨0, 0, 0, false⟩ = some a) :
    ∃ whole frac point, NumberParts body whole frac point := by
  obtain ⟨whole, rest, rfl, hw, hrest⟩ := exists_digits body
  rw [scanNumber_digits whole _ _ hw] at h
  cases rest with
  | nil => exact ⟨whole, [], false, by simp, fun _ => rfl, by simpa using hw⟩
  | cons c cs =>
    by_cases hc : c = 0x2E#8
    · subst hc
      rw [scanNumber_point _ _ rfl] at h
      obtain ⟨frac, rest, rfl, hf, hrest⟩ := exists_digits cs
      rw [scanNumber_digits frac _ _ hf] at h
      cases rest with
      | nil => exact ⟨whole, frac, true, by simp, by simp, List.forall_mem_append.mpr ⟨hw, hf⟩⟩
      | cons c cs =>
        rw [scanNumber_reject cs (hrest c cs rfl) (by simp)] at h
        cases h
    · rw [scanNumber_reject cs (hrest c cs rfl) fun hp => hc hp.1] at h
      cases h

/-- A body holds digits and the point only, so it begins with no sign. -/
theorem NumberParts.not_sign {body whole frac : ByteString} {point : Bool} (h : NumberParts body whole frac point) :
    ∀ c ∈ body, c ≠ 0x2D#8 ∧ c ≠ 0x2B#8 := by
  have hdigit : ∀ c ∈ whole ++ frac, c ≠ 0x2D#8 ∧ c ≠ 0x2B#8 := by
    intro c hc
    constructor <;> rintro rfl <;> exact absurd (h.isDigit _ hc) (by decide)
  obtain ⟨hw, hf⟩ := List.forall_mem_append.mp hdigit
  rw [h.body_eq]
  refine List.forall_mem_append.mpr ⟨hw, ?_⟩
  cases point with
  | false => simp
  | true => exact List.forall_mem_cons.mpr ⟨by decide, hf⟩

/-- Every text is a sign of the grammar and a rest, which is what `splitSign` gives. -/
theorem exists_signBytes (t : ByteString) :
    ∃ sign, t = signBytes sign ++ (splitSign t).2 ∧ (splitSign t).1 = decide (sign = some true) := by
  cases t with
  | nil => exact ⟨none, rfl, rfl⟩
  | cons c cs =>
    by_cases hm : c = 0x2D#8
    · exact ⟨some true, by simp [splitSign, signBytes, hm]⟩
    · by_cases hp : c = 0x2B#8
      · exact ⟨some false, by simp [splitSign, signBytes, hp]⟩
      · exact ⟨none, by simp [splitSign, signBytes, hm, hp]⟩

/-- A sign is split off a text that begins with no other sign. -/
theorem splitSign_signBytes_append (sign : Option Bool) {body : ByteString}
    (h : ∀ c ∈ body, c ≠ 0x2D#8 ∧ c ≠ 0x2B#8) :
    splitSign (signBytes sign ++ body) = (decide (sign = some true), body) := by
  match sign, body with
  | some true, _ => rfl
  | some false, _ => rfl
  | none, [] => rfl
  | none, c :: cs =>
    obtain ⟨hm, hp⟩ := h c List.mem_cons_self
    simp [splitSign, signBytes, hm, hp]

/-- The grammar, with the text cut after its sign. -/
theorem isDecimalText_iff {t : ByteString} {d : Decimal} :
    IsDecimalText t d ↔ ∃ sign body whole frac point, t = signBytes sign ++ body
      ∧ NumberParts body whole frac point ∧ 1 ≤ (whole ++ frac).length
      ∧ d = ⟨decide (sign = some true), BitVec.ofNat 24 (digitsValue (whole ++ frac)), -(frac.length : Int)⟩ := by
  constructor
  · rintro ⟨sign, whole, frac, point, rfl, hf, hd, hl, rfl⟩
    exact ⟨sign, _, whole, frac, point, List.append_assoc _ _ _, ⟨rfl, hf, hd⟩, hl, rfl⟩
  · rintro ⟨sign, _, whole, frac, point, rfl, ⟨rfl, hf, hd⟩, hl, rfl⟩
    exact ⟨sign, whole, frac, point, (List.append_assoc _ _ _).symm, hf, hd, hl, rfl⟩

/-- parse_decimal answers when the loop ends after at least one digit (R146). -/
theorem parseDecimal_eq_some_iff_scan {t : ByteString} {d : Decimal} :
    parseDecimal t = some d ↔ ∃ a, scanNumber (splitSign t).2 ⟨0, 0, 0, false⟩ = some a ∧ a.digits ≠ 0
      ∧ d = ⟨(splitSign t).1, BitVec.ofNat 24 a.mant, -(a.frac : Int)⟩ := by
  unfold parseDecimal
  cases scanNumber (splitSign t).2 ⟨0, 0, 0, false⟩ with
  | none => simp
  | some a => by_cases ha : a.digits = 0 <;> simp [ha, eq_comm]

/-- parse_decimal accepts the grammar: the sign is split off as the grammar has it, and the loop accepts the bodies of
the grammar, each to its digits. -/
theorem parseDecimal_iff_isDecimalText {t : ByteString} {d : Decimal} :
    parseDecimal t = some d ↔ IsDecimalText t d := by
  rw [parseDecimal_eq_some_iff_scan, isDecimalText_iff]
  constructor
  · rintro ⟨a, ha, hdigits, rfl⟩
    obtain ⟨sign, ht, hneg⟩ := exists_signBytes t
    obtain ⟨whole, frac, point, hparts⟩ := exists_numberParts ha
    obtain rfl := Option.some.inj (hparts.scan_eq.symm.trans ha)
    exact ⟨sign, _, whole, frac, point, ht, hparts, Nat.one_le_iff_ne_zero.mpr hdigits, by rw [hneg]⟩
  · rintro ⟨sign, body, whole, frac, point, rfl, hparts, hl, rfl⟩
    rw [splitSign_signBytes_append sign hparts.not_sign]
    exact ⟨_, hparts.scan_eq, Nat.one_le_iff_ne_zero.mp hl, rfl⟩

end Sys2Proof.Machine

namespace Sys2Proof.Proofs

open Sys2Proof.Machine

/-- Settles O52: accepted texts are cut at their sign and their point, and every text of the grammar is read to its
end. -/
theorem parseAcceptsTheGrammar : Obligations.ParseAcceptsTheGrammar := fun _ _ => parseDecimal_iff_isDecimalText

end Sys2Proof.Proofs
end

section
/-! What DECODE answers, payload by payload: the three errors in step order, or a measurement
(41_payload_decode.md R141 to R146, R156). -/

namespace Sys2Proof.Machine

/-- Where the fields of a payload stand in it (30_encoding.md R78). -/
structure FieldBytes (p : ByteString) (f : PayloadFields) : Prop where
  modeIndex : p[0]? = some f.modeIndex
  rangeCode : p[1]? = some f.rangeCode
  display : f.display = (p.drop 2).take 7
  progressTens : p[9]? = some f.progressTens
  progressOnes : p[10]? = some f.progressOnes
  statusA : p[11]? = some f.statusA
  statusB : p[12]? = some f.statusB
  statusC : p[13]? = some f.statusC

theorem fieldBytes_of_payloadFields {p : ByteString} {f : PayloadFields} (h : payloadFields p = some f) :
    FieldBytes p f := by
  have hdisplay := display_eq h
  obtain ⟨d2, d3, d4, d5, d6, d7, d8, rest, rfl, -⟩ := payloadFields_eq_some h
  exact ⟨rfl, rfl, hdisplay, rfl, rfl, rfl, rfl, rfl⟩

theorem FieldBytes.headD {p : ByteString} {f : PayloadFields} (h : FieldBytes p f) : p.headD 0#8 = f.modeIndex := by
  rw [List.headD_eq_head?_getD, List.head?_eq_getElem?, h.modeIndex, Option.getD_some]

/-- A text has no value exactly when it is neither a marker nor a decimal number (R145, R146). -/
theorem readValue_eq_none {P : Profile} {t : ByteString} :
    readValue P t = none ↔ t ∉ P.overloadMarkers ∧ ∀ d, ¬ IsDecimalText t d := by
  by_cases hm : t ∈ P.overloadMarkers
  · simp [readValue_of_mem hm, hm]
  · have hparse : (∀ d, ¬ IsDecimalText t d) ↔ parseDecimal t = none := by
      simp only [← parseDecimal_iff_isDecimalText, Option.eq_none_iff_forall_ne_some, ne_eq]
    rw [hparse, readValue, if_neg (mt (isOverloadText_iff P t).mp hm)]
    cases parseDecimal t <;> simp [hm]

/-- A display that DECODE reads: ASCII bytes whose text, the spaces removed, is a marker or a decimal number (R144 to
R146). -/
def Readable (P : Profile) (d : ByteString) : Prop :=
  (∀ c ∈ d, c.toNat < 0x80)
    ∧ (d.filter (· ≠ 0x20#8) ∈ P.overloadMarkers ∨ ∃ v, IsDecimalText (d.filter (· ≠ 0x20#8)) v)

theorem not_readable_iff {P : Profile} {d : ByteString} :
    ¬ Readable P d ↔ (∃ c ∈ d, 0x80 ≤ c.toNat)
      ∨ (d.filter (· ≠ 0x20#8) ∉ P.overloadMarkers ∧ ∀ v, ¬ IsDecimalText (d.filter (· ≠ 0x20#8)) v) := by
  simp only [Readable, Classical.not_and_iff_not_or_not, not_forall, not_or, not_exists, Nat.not_lt, exists_prop]

/-- The four answers of DECODE and when each is given. -/
inductive Decodes (P : Profile) (p : ByteString) : DecodeResult → Prop where
  | shortPayload (hlen : p.length < 14) : Decodes P p (.err .shortPayload)
  | unknownMode (hlen : 14 ≤ p.length) (hmode : P.modes.length ≤ (p.headD 0#8).toNat) :
      Decodes P p (.err .unknownMode)
  | badDisplay (hlen : 14 ≤ p.length) (hmode : (p.headD 0#8).toNat < P.modes.length)
      (hdisplay : ¬ Readable P ((p.drop 2).take 7)) : Decodes P p (.err .badDisplay)
  | ok (m : Measurement) (hlen : 14 ≤ p.length) (hmode : (p.headD 0#8).toNat < P.modes.length)
      (hdisplay : Readable P ((p.drop 2).take 7)) : Decodes P p (.ok m)

/-- DECODE takes its steps in order, the first error ending it (R140). -/
theorem decodes_decodePayload (P : Profile) (p : ByteString) : Decodes P p (decodePayload P p) := by
  unfold decodePayload
  split
  · next hf => exact .shortPayload (by simpa [hf] using payloadFields_isSome p)
  · next f hf =>
    have hlen : 14 ≤ p.length := (payloadFields_isSome p).mp (by rw [hf]; rfl)
    have hb := fieldBytes_of_payloadFields hf
    rw [hb.display, ← hb.headD]
    split
    · next hn => exact .unknownMode hlen (modeName_eq_none.mp hn)
    · next name hn =>
      have hmode := modeName_eq_some hn
      split
      · next ht => exact .badDisplay hlen hmode (not_readable_iff.mpr (.inl (displayText_eq_none.mp ht)))
      · next t ht =>
        obtain ⟨hascii, rfl⟩ := displayText_eq_some.mp ht
        split
        · next hv => exact .badDisplay hlen hmode (not_readable_iff.mpr (.inr (readValue_eq_none.mp hv)))
        · next ov v0 hv =>
          refine .ok _ hlen hmode (of_not_not fun hd => ?_)
          rcases not_readable_iff.mp hd with ⟨c, hc, h8⟩ | hnone
          · exact Nat.not_lt.mpr h8 (hascii c hc)
          · cases hv.symm.trans (readValue_eq_none.mpr hnone)

/-- The codes of R84 tell the four answers apart. -/
theorem code_eq_iff (r : DecodeResult) :
    (r.code = 0#2 ↔ ∃ m, r = .ok m) ∧ (r.code = 1#2 ↔ r = .err .shortPayload)
      ∧ (r.code = 2#2 ↔ r = .err .unknownMode) ∧ (r.code = 3#2 ↔ r = .err .badDisplay) := by
  match r with
  | .ok _ | .err .shortPayload | .err .unknownMode | .err .badDisplay => simp [DecodeResult.code]

end Sys2Proof.Machine

namespace Sys2Proof.Proofs

open Sys2Proof.Machine

/-- Settles O48: the conditions of the four answers exclude each other. -/
theorem decodeErrorsInStepOrder : Obligations.DecodeErrorsInStepOrder := by
  intro P p
  rw [← not_readable_iff]
  have h := decodes_decodePayload P p
  generalize decodePayload P p = r at h ⊢
  cases h with
  | shortPayload hlen => simp [hlen, Nat.not_le.mpr hlen]
  | unknownMode hlen hmode => simp [hlen, hmode, Nat.not_lt.mpr hlen, Nat.not_lt.mpr hmode, -List.headD_eq_head?_getD]
  | badDisplay hlen hmode hdisplay => simp [hlen, hmode, hdisplay, -List.headD_eq_head?_getD]
  | ok m hlen hmode hdisplay => simp [hlen, hmode, hdisplay, -List.headD_eq_head?_getD]

/-- Settles O49: one of the four answers is given, and the measurement exactly under its conditions. -/
theorem decodeIsTotal : Obligations.DecodeIsTotal := by
  intro P p
  have h := decodes_decodePayload P p
  generalize decodePayload P p = r at h ⊢
  refine ⟨?_, ?_, code_eq_iff r⟩
  · cases h <;> simp
  · show _ ↔ 14 ≤ p.length ∧ (p.headD 0#8).toNat < P.modes.length ∧ Readable P ((p.drop 2).take 7)
    cases h with
    | shortPayload hlen => simp [Nat.not_le.mpr hlen]
    | unknownMode hlen hmode => simp [Nat.not_lt.mpr hmode, -List.headD_eq_head?_getD]
    | badDisplay hlen hmode hdisplay => simp [hdisplay]
    | ok m hlen hmode hdisplay => simp [hlen, hmode, hdisplay, -List.headD_eq_head?_getD]

end Sys2Proof.Proofs
end

section
/-! The fields of a measurement and the bytes they come from (41_payload_decode.md R142 to R152). -/

namespace Sys2Proof.Machine

/-- The text of a measurement is its display bytes without the spaces, so it is at most seven bytes (R144). -/
theorem displayText_of_payloadFields {p t : ByteString} {f : PayloadFields} (hf : payloadFields p = some f)
    (ht : displayText f.display = some t) : t = ((p.drop 2).take 7).filter (· ≠ 0x20#8) ∧ t.length ≤ 7 := by
  obtain ⟨-, rfl⟩ := displayText_eq_some.mp ht
  rw [display_eq hf]
  exact ⟨rfl, (List.length_filter_le _ _).trans (List.length_take_le _ _)⟩

/-- The value read is absent on an overload, and what parse_decimal gives otherwise (R145, R146). -/
theorem readValue_not_overload {P : Profile} {t : ByteString} {ov : Bool} {v : Option Decimal}
    (h : readValue P t = some (ov, v)) (hov : ov = false) : ∃ d, v = some d ∧ parseDecimal t = some d := by
  rcases readValue_eq_some h with ⟨ht, -⟩ | ⟨-, -, hd⟩
  · cases hov.symm.trans ht
  · exact hd

/-- Without an exponent for the unit the value is unscaled (R148). -/
theorem normaliseValue_of_no_exponent {P : Profile} {d : Decimal} {u : Option ByteString}
    (h : u.bind (unitExponent P) = none) : normaliseValue P (some d) u = some d := by
  rw [normaliseValue_some, h, Option.getD_none, add_zero]

/-- A unit's exponent is added to the value's (R148). -/
theorem normaliseValue_of_exponent {P : Profile} {d : Decimal} {u : Option ByteString} {e : Int}
    (h : u.bind (unitExponent P) = some e) :
    normaliseValue P (some d) u = some { d with exp := d.exp + e } := by
  rw [normaliseValue_some, h, Option.getD_some]

/-- Adding to the exponent multiplies the number by that power of ten, exactly (30_encoding.md R85). -/
theorem toRat_exp_add (d : Decimal) (e : Int) : { d with exp := d.exp + e : Decimal }.toRat = d.toRat * 10 ^ e := by
  have hpow : (10 : ℚ) ^ (d.exp + e) = 10 ^ d.exp * 10 ^ e := zpow_add₀ (by norm_num) _ _
  exact (congrArg ((d.signed : ℚ) * ·) hpow).trans (mul_assoc _ _ _).symm

end Sys2Proof.Machine

namespace Sys2Proof.Proofs

open Sys2Proof.Machine

/-- Settles O50: the fields are read at their places, and progress fits its 12 bits. -/
theorem plainFieldsComeFromTheirBytes : Obligations.PlainFieldsComeFromTheirBytes := by
  intro P p m h
  obtain ⟨f, name, t, ov, v0, hf, hname, ht, -, rfl⟩ := decodePayload_ok h
  have hb := fieldBytes_of_payloadFields hf
  obtain ⟨htext, hlen⟩ := displayText_of_payloadFields hf ht
  have hprogress := progressOf_toNat f.progressTens f.progressOnes
  have htens := f.progressTens.isLt
  have hones := f.progressOnes.isLt
  exact ⟨hb.modeIndex, modeName_eq_some hname, hb.rangeCode, htext, hlen, f.progressTens, f.progressOnes,
    hb.progressTens, hb.progressOnes, hprogress, hprogress.trans_le (by omega)⟩

/-- Settles O51: the overload test comes before the parse, and the unit and the flags are read after either. -/
theorem overloadMakesNoValue : Obligations.OverloadMakesNoValue := by
  constructor
  · intro P p hlen hmode hascii hmarker
    obtain ⟨f, hf⟩ := Option.isSome_iff_exists.mp ((payloadFields_isSome p).mpr hlen)
    have hb := fieldBytes_of_payloadFields hf
    rw [hb.headD] at hmode ⊢
    rw [← hb.display] at hascii hmarker
    obtain ⟨m, hm, hov, hv⟩ := decodePayload_of_marker hf hmode (displayText_eq_some.mpr ⟨hascii, rfl⟩) hmarker
    obtain ⟨f', name, t, ov, v0, hf', hname, -, -, rfl⟩ := decodePayload_ok hm
    obtain rfl := Option.some.inj (hf.symm.trans hf')
    exact ⟨_, name, f.rangeCode, f.statusA, f.statusB, f.statusC, hm, hov, hv, hname, hb.rangeCode, rfl, hb.statusA,
      hb.statusB, hb.statusC, rfl⟩
  · intro P p m h
    obtain ⟨f, name, t, ov, v0, -, -, -, hv, rfl⟩ := decodePayload_ok h
    show ov = true ↔ t ∈ P.overloadMarkers
    rcases readValue_eq_some hv with ⟨rfl, -, ht⟩ | ⟨rfl, ht, -⟩ <;> simp [ht]

/-- Settles O53: the three cases of the unit are those of `normaliseUnit` and `normaliseValue`. -/
theorem unitAndValueNormalised : Obligations.UnitAndValueNormalised := by
  intro P p m h
  obtain ⟨f, name, t, ov, v0, hf, hname, -, hv, rfl⟩ := decodePayload_ok h
  have hparse := readValue_not_overload hv
  refine ⟨name, f.rangeCode, hname, (fieldBytes_of_payloadFields hf).rangeCode, fun hu => ?_, fun c u e hu he => ?_,
    fun c u hu he => ?_⟩
  all_goals rw [hu]
  · refine ⟨rfl, fun hov => ?_⟩
    obtain ⟨d, rfl, hd⟩ := hparse hov
    exact (normaliseValue_of_no_exponent (P := P) (u := none) rfl).trans hd.symm
  · refine ⟨normaliseUnit_of_exponent he, fun hov => ?_⟩
    obtain ⟨d, rfl, hd⟩ := hparse hov
    exact ⟨d, _, hd, normaliseValue_of_exponent he, rfl, rfl, rfl, toRat_exp_add d e⟩
  · refine ⟨normaliseUnit_of_no_exponent he, fun hov => ?_⟩
    obtain ⟨d, rfl, hd⟩ := hparse hov
    exact (normaliseValue_of_no_exponent (u := some (c :: u)) he).trans hd.symm

/-- Settles O54: the flags are read from bytes 11 to 13, under the default layout at the positions of R82. -/
theorem statusFlagsReadTheirBits : Obligations.StatusFlagsReadTheirBits := by
  intro P p m h
  obtain ⟨f, name, t, ov, v0, hf, -, -, -, rfl⟩ := decodePayload_ok h
  have hb := fieldBytes_of_payloadFields hf
  refine ⟨f.statusA, f.statusB, f.statusC, hb.statusA, hb.statusB, hb.statusC, rfl, fun hlayout => ?_⟩
  rw [hlayout]
  rfl

/-- Settles O58: the display and the unit are read, and the exponent of `m` is added. -/
theorem sourceExampleMillivolts : Obligations.SourceExampleMillivolts := by
  intro P i rest hsource hname hexp hmarker hrest
  have hmode : i.toNat < P.modes.length := modeName_eq_some hname
  have hparse : parseDecimal [0x35#8, 0x2E#8, 0x35#8, 0x34#8] = some ⟨false, 554#24, -2⟩ := by decide
  have hreadable : Readable P [0x20#8, 0x20#8, 0x20#8, 0x35#8, 0x2E#8, 0x35#8, 0x34#8] :=
    ⟨by decide, .inr ⟨_, parseDecimal_iff_isDecimalText.mp hparse⟩⟩
  obtain ⟨m, hm⟩ := (decodeIsTotal P
    ([i, 0x30#8, 0x20#8, 0x20#8, 0x20#8, 0x35#8, 0x2E#8, 0x35#8, 0x34#8] ++ rest)).2.1.mpr
      ⟨by simp; omega, hmode, hreadable⟩
  obtain ⟨hi, -, -, htext, -⟩ := plainFieldsComeFromTheirBytes P _ m hm
  replace htext : m.displayText = [0x35#8, 0x2E#8, 0x35#8, 0x34#8] := htext
  obtain rfl : i = m.mode := Option.some.inj hi
  have hov : m.isOverload = false := by
    rw [Bool.eq_false_iff, ne_eq, overloadMakesNoValue.2 P _ m hm, htext]
    exact hmarker
  obtain ⟨name, r, hname', hr, -, hunit, -⟩ := unitAndValueNormalised P _ m hm
  obtain rfl := Option.some.inj (hname'.symm.trans hname)
  obtain rfl : 0x30#8 = r := Option.some.inj hr
  obtain ⟨hu, hvalue⟩ := hunit _ _ _ hsource.acmv_unit hexp
  obtain ⟨v0, v, hv0, hv, -, -, -, hrat⟩ := hvalue hov
  rw [htext, hparse] at hv0
  obtain rfl := Option.some.inj hv0
  refine ⟨m, v, hm, hv, hrat.trans ?_, hu, hov⟩
  norm_num [Decimal.toRat, Decimal.signed]

end Sys2Proof.Proofs
end

section
/-! The bounds of a parsed and of a returned value (41_payload_decode.md R155, 30_encoding.md R85, R87). -/

namespace Sys2Proof.Machine

theorem digitsValue_append_singleton (ds : ByteString) (c : Byte) :
    digitsValue (ds ++ [c]) = digitsValue ds * 10 + (c.toNat - 0x30) := List.foldl_append

/-- A digit string of length k writes a number below 10^k. -/
theorem digitsValue_lt {ds : ByteString} (h : ∀ c ∈ ds, isDigit c = true) : digitsValue ds < 10 ^ ds.length := by
  induction ds using List.reverseRecOn with
  | nil => exact Nat.one_pos
  | append_singleton ds c ih =>
    obtain ⟨hds, hc⟩ := List.forall_mem_append.mp h
    have hlt := ih hds
    have hc9 : c.toNat ≤ 0x39 := by simpa [isDigit] using (Bool.and_eq_true_iff.mp (hc c List.mem_cons_self)).2
    rw [digitsValue_append_singleton, List.length_append, List.length_singleton, Nat.pow_succ]
    omega

/-- Of at most seven bytes at most seven are digits, and with fraction digits one is the point. -/
theorem NumberParts.length_bounds {body whole frac : ByteString} {point : Bool}
    (h : NumberParts body whole frac point) (hlen : body.length ≤ 7) :
    frac.length ≤ 6 ∧ frac.length + whole.length ≤ 7 := by
  rw [h.body_eq, List.length_append] at hlen
  cases point with
  | false =>
    obtain rfl := h.frac_nil rfl
    simpa using hlen
  | true =>
    simp only [if_true, List.length_cons] at hlen
    omega

/-- A parsed text of at most seven bytes: its parts, and the bounds of its number (R155). -/
theorem exists_parts_of_parseDecimal {t : ByteString} {d : Decimal} (ht : t.length ≤ 7)
    (h : parseDecimal t = some d) :
    ∃ sign body whole frac point, t = signBytes sign ++ body ∧ NumberParts body whole frac point
      ∧ d.neg = decide (sign = some true) ∧ d.mant.toNat = digitsValue (whole ++ frac) ∧ d.exp = -(frac.length : Int)
      ∧ d.mant.toNat < 10 ^ 7 ∧ frac.length ≤ 6 ∧ frac.length + whole.length ≤ 7 := by
  obtain ⟨sign, body, whole, frac, point, rfl, hparts, -, rfl⟩ :=
    isDecimalText_iff.mp (parseDecimal_iff_isDecimalText.mp h)
  rw [List.length_append] at ht
  obtain ⟨hfrac, hdigits⟩ := hparts.length_bounds (by omega)
  have hvalue : digitsValue (whole ++ frac) < 10 ^ 7 :=
    (digitsValue_lt hparts.isDigit).trans_le (Nat.pow_le_pow_right (by omega) (by rw [List.length_append]; omega))
  have hmant : (BitVec.ofNat 24 (digitsValue (whole ++ frac))).toNat = digitsValue (whole ++ frac) :=
    (BitVec.toNat_ofNat _ _).trans (Nat.mod_eq_of_lt (hvalue.trans (by omega)))
  exact ⟨sign, body, whole, frac, point, rfl, hparts, rfl, hmant, rfl, hmant.trans_lt hvalue, hfrac, hdigits⟩

/-- Every default exponent is in -9..+6 (R87). -/
theorem exponentOf_default_bounds {P : Profile} (hP : P.exponentTable = defaultExponentTable) {b : Byte} {e : Int}
    (h : exponentOf P b = some e) : -9 ≤ e ∧ e ≤ 6 := by
  rw [exponentOf_eq_some_iff (hP ▸ defaultExponentTable_nodup), hP, mem_defaultExponentTable] at h
  omega

/-- A unit's exponent is the exponent of a byte. -/
theorem unitExponent_eq_some {P : Profile} {u : ByteString} {e : Int} (h : unitExponent P u = some e) :
    ∃ b, exponentOf P b = some e := by
  cases u with
  | nil => cases h
  | cons b _ => exact ⟨b, h⟩

/-- A returned value is a parsed number of the display text whose exponent is kept, or moved by an exponent of the
table (R148). -/
theorem exists_parse_of_value {P : Profile} {p : ByteString} {m : Measurement} {v : Decimal}
    (h : decodePayload P p = .ok m) (hv : m.value = some v) :
    ∃ d, parseDecimal m.displayText = some d ∧ v.mant = d.mant
      ∧ (v.exp = d.exp ∨ ∃ b e, exponentOf P b = some e ∧ v.exp = d.exp + e) := by
  obtain ⟨f, name, t, ov, v0, -, -, -, hread, rfl⟩ := decodePayload_ok h
  replace hv : normaliseValue P v0 (unitOf P name f.rangeCode) = some v := hv
  rcases readValue_eq_some hread with ⟨-, rfl, -⟩ | ⟨-, -, d, rfl, hd⟩
  · cases hv
  · cases hu : (unitOf P name f.rangeCode).bind (unitExponent P) with
    | none =>
      rw [normaliseValue_of_no_exponent hu] at hv
      obtain rfl := Option.some.inj hv
      exact ⟨d, hd, rfl, .inl rfl⟩
    | some e =>
      rw [normaliseValue_of_exponent hu] at hv
      obtain rfl := Option.some.inj hv
      obtain ⟨u, -, he⟩ := Option.bind_eq_some_iff.mp hu
      obtain ⟨b, hb⟩ := unitExponent_eq_some he
      exact ⟨d, hd, rfl, .inr ⟨b, e, hb, rfl⟩⟩

end Sys2Proof.Machine

namespace Sys2Proof.Proofs

open Sys2Proof.Machine

/-- Settles O55: a display text has at most seven bytes, and normalising moves only the exponent. -/
theorem numericLaws : Obligations.NumericLaws := by
  constructor
  · intro t d ht h
    obtain ⟨sign, body, whole, frac, point, rfl, hparts, hneg, hmant, hexp, hbounds⟩ :=
      exists_parts_of_parseDecimal ht h
    exact ⟨sign, whole, frac, point, by rw [hparts.body_eq, List.append_assoc], hparts.frac_nil, hparts.isDigit, hneg,
      hmant, hexp, hbounds⟩
  · intro P p m v h hv
    obtain ⟨-, -, -, -, hlen, -⟩ := plainFieldsComeFromTheirBytes P p m h
    obtain ⟨d, hd, hvmant, hvexp⟩ := exists_parse_of_value h hv
    obtain ⟨-, -, -, frac, -, -, -, -, -, hexp, hlt, hfrac, -⟩ := exists_parts_of_parseDecimal hlen hd
    refine ⟨hvmant ▸ hlt, fun hP => ?_⟩
    rcases hvexp with he | ⟨b, e, hb, he⟩
    · omega
    · have hbounds := exponentOf_default_bounds hP hb
      omega

end Sys2Proof.Proofs
end

section
/-! DECODE as an operation: its answer and what it leaves unchanged (41_payload_decode.md R140, R153). -/

namespace Sys2Proof.Proofs

open Sys2Proof.Machine

/-- Settles O14: DECODE answers under the loaded profile, and without one is refused. -/
theorem decodeAnswersWithProfile : Obligations.DecodeAnswersWithProfile :=
  ⟨fun _ _ => rfl, fun p _ _ hP => execDecode_of_profile p hP, fun p _ hP => execDecode_of_no_profile p hP⟩

/-- Settles O47: the result is a function of the profile and the payload, and is all that is written. -/
theorem decodeIsPure : Obligations.DecodeIsPure := by
  constructor
  · intro p s s' t hst h
    obtain ⟨P, hP, rfl⟩ := execDecode_next h
    exact ⟨_, execDecode_of_profile p (hst.symm.trans hP), rfl, rfl, rfl⟩
  · intro p s t h
    obtain ⟨P, hP, rfl⟩ := execDecode_next h
    exact execDecode_of_profile p hP

end Sys2Proof.Proofs
end

section
/-! What the pins of one cycle present, and what the cycle then does (60_exceptions.md R203, 10_state.md R36). -/

namespace Sys2Proof.Machine

/-- Reset wins over Clear and over a byte (60_exceptions.md R203). -/
theorem pins_input_reset {pins : Pins} (hr : pins.rst = true) : pins.input = some .reset := by
  simp [Pins.input, hr]

/-- A byte is presented when neither Reset nor Clear is (60_exceptions.md R203). -/
theorem pins_input_byte {pins : Pins} (hr : pins.rst = false) (hc : pins.clear = false)
    (hv : pins.inValid = true) : pins.input = some (.byte pins.inByte) := by
  simp [Pins.input, hr, hc, hv]

theorem pins_input_none {pins : Pins} (hr : pins.rst = false) (hc : pins.clear = false)
    (hv : pins.inValid = false) : pins.input = none := by
  simp [Pins.input, hr, hc, hv]

/-- With no input only the outputs end (10_state.md R36, 70_reset_and_hazards.md R239). -/
theorem portCycle_of_no_input {pins : Pins} (h : pins.input = none) (s : State) :
    portCycle pins s = .next s.quiet := by
  unfold portCycle
  rw [h]

end Sys2Proof.Machine

namespace Sys2Proof.Proofs

open Sys2Proof.Machine

/-- Settles O43: each setting of the pins presents one input, and the cycle takes that input alone. -/
theorem portPriority : Obligations.PortPriority := by
  intro pins s
  refine ⟨fun hr => ?_, fun hr hc => ?_, fun hr hc hv => ?_, fun hr hc hv => ⟨0#2, ?_⟩⟩
  · exact portCycle_of_input (pins_input_reset hr) s
  · exact portCycle_of_input (pins_input_clear hr hc) s
  · exact portCycle_of_input (pins_input_byte hr hc hv) s
  · exact portCycle_of_no_input (pins_input_none hr hc hv) s

end Sys2Proof.Proofs
end

section
/-! Reset, and the hazards of a stream: a stray header byte, a truncated frame, a payload of equal sum, and buffer
reuse (70_reset_and_hazards.md R230, R234, R235, R237, R238). -/

namespace Sys2Proof.Machine

/-- With no byte listed every index reads as the free value (log entry 5). -/
theorem bufRead_of_buf_nil {s : State} (h : s.buf = []) (i : Nat) : s.bufRead i = Config.bufUnwritten s.era i := by
  unfold State.bufRead
  rw [h]
  rfl

/-- A checksum field sees only the payload's length and its byte sum (30_encoding.md R72). -/
theorem frameChecksum_congr {p q : ByteString} (hlen : p.length = q.length) (hsum : byteSum p = byteSum q) :
    frameChecksum p = frameChecksum q := by
  rw [frameChecksum, frameChecksum, hlen, hsum]

/-- From SEEK1, a frame that carries another payload's checksum field is accepted when the two fields are equal. -/
theorem run_frameWith_of_checksum_eq {s : State} {p q : ByteString} (h : s.st = .seek1) (hq : q.length + 2 ≤ 255)
    (hck : frameChecksum p = frameChecksum q) :
    ∃ t, run (feed (frameWith q (frameChecksum p))) s = .next (t, [.frame q (BitVec.ofNat 8 q.length)]) := by
  obtain ⟨t, ht, -⟩ := run_frameBytes q h hq
  rw [hck]
  exact ⟨t, ht⟩

/-- After a stray 0xAB the header's 0xAB is consumed, not matched again (40_frame_sync.md R104). -/
theorem run_strayHeader {s : State} (h : s.st = .seek1) :
    run (feed [0xAB#8, 0xAB#8]) s = .next ({ s.quiet with sum := 0x00AB#16, st := .seek1 }, []) :=
  run_cons_next (es := []) (stepInput_hdr1 h) (run_cons_next (es := []) (stepInput_miss rfl (by decide)) rfl)

/-- The first byte after a legal length byte is stored at index 0, whichever row it takes (R107, R108). -/
theorem run_header_len_byte {s : State} (h : s.st = .seek1) {N : Byte} (hN : 2 ≤ N.toNat) (b : Byte) :
    ∃ t es, run (feed [0xAB#8, 0xCD#8, N, b]) s = .next (t, es) ∧ t.bufRead 0 = b := by
  obtain ⟨u, hu, hst, hn, hcnt⟩ := stepInput_len_starts (s := { s.quiet with st := .len, sum := 0x0178#16 }) rfl hN
  obtain ⟨t, ht, stored, -⟩ := stepInput_payload_stays hst (by rw [hcnt, hn]; omega) b
  have hrun := run_append (run_header h) (run_cons_next hu (run_cons_next ht (run_nil t)))
  exact ⟨t, _, hrun, bufRead_write_same (hcnt ▸ stored.buf)⟩

end Sys2Proof.Machine

namespace Sys2Proof.Proofs

open Sys2Proof.Machine

/-- Settles O39: the header's 0xAB is consumed as a miss, and what follows, its 0xCD first, is noise in SEEK1. -/
theorem strayHeaderByteMissesFrame : Obligations.StrayHeaderByteMissesFrame := by
  intro s rest h hrest
  have hnoise : ∀ b ∈ 0xCD#8 :: rest, b ≠ 0xAB#8 := List.forall_mem_cons.mpr ⟨by decide, hrest⟩
  obtain ⟨t, ht, hst⟩ := run_noise (0xCD#8 :: rest) (s := { s.quiet with sum := 0x00AB#16, st := .seek1 }) rfl hnoise
  exact ⟨t, run_append (run_strayHeader h) ht, hst⟩

/-- Settles O40: every byte before the last is stored without an event, and Clear returns to SEEK1 from there. -/
theorem truncatedFrameWaits : Obligations.TruncatedFrameWaits := by
  intro s bs _ hst hlen
  obtain ⟨t, ht, htst, -⟩ := run_payload_stays bs hst hlen
  have hclear : run [.clear] t = .next ({ t.quiet with st := .seek1 }, []) :=
    run_cons_next (es := []) (stepInput_clear t) rfl
  exact ⟨t, ht, htst, _, run_append ht hclear, rfl⟩

/-- Settles O41: equal length and byte sum give equal checksum fields, and a permutation has both. -/
theorem checksumMissesReordering : Obligations.ChecksumMissesReordering := by
  refine ⟨fun s p q h hp hlen hsum => ?_, fun s p q h hp hperm => ?_⟩
  · exact run_frameWith_of_checksum_eq h (hlen ▸ hp) (frameChecksum_congr hlen.symm hsum.symm)
  · exact run_frameWith_of_checksum_eq h (hperm.length_eq ▸ hp) (frameChecksum_perm hperm)

/-- Settles O45: three bytes from SEEK1 store nothing, and the byte after a legal length byte goes to index 0. -/
theorem bufferKeptForThreeBytes : Obligations.BufferKeptForThreeBytes := by
  refine ⟨fun s t bs es h hlen hrun a => ?_, fun s N b h hN => ?_⟩
  · obtain ⟨u, es', hu, hbuf, hera, -⟩ := run_quietBytes bs (s := s) (by rw [h]; exact hlen)
    obtain ⟨rfl, -⟩ := Prod.mk.inj (Host.Outcome.next.inj (hu.symm.trans hrun))
    exact bufRead_congr hbuf hera a.toNat
  · exact run_header_len_byte h hN b

/-- Settles O2: RESET's next state field by field, and the pins present it before Clear and before a byte. -/
theorem resetSetsEveryRegister : Obligations.ResetSetsEveryRegister :=
  ⟨fun _ => rfl,
    fun _ => ⟨_, rfl, rfl, rfl, rfl, rfl, bufRead_of_buf_nil rfl, rfl, rfl, rfl, rfl⟩,
    fun _ s hr => portCycle_of_input (pins_input_reset hr) s⟩

end Sys2Proof.Proofs
end
